-- ==== Sys2Proof/Word.lean ====
section
/-! DEFINITION. The value types of the unit: bytes, wire words, the command word and data bus, the header value `Hdr`
(the set of values of the register bank `H`) and the names of its ten fields. -/

namespace Sys2Proof

/-- One byte of a buffer (`20_memory.md` R26, R27). -/
abbrev Byte := BitVec 8

/-- One 16-bit wire word (`00_scope.md` R6, `WORD_W`). -/
abbrev Word := BitVec 16

/-- The command word `cmd[19:0]` (`30_encoding.md` R46; `00_scope.md` R7, `CMD_W`). -/
abbrev CmdWord := BitVec 20

/-- A 96-bit bus that carries twelve bytes, byte 0 in bits 95 to 88 (`20_memory.md` R26, R27). -/
abbrev Bus := BitVec 96

/-- A header value: the ten fields of `H`, each at exactly its width (`10_state.md` R15; `00_scope.md` R10). -/
structure Hdr where
  id      : BitVec 16
  qr      : BitVec 1
  opcode  : BitVec 4
  flags   : BitVec 4
  z       : BitVec 3
  rcode   : BitVec 4
  qdcount : BitVec 16
  ancount : BitVec 16
  nscount : BitVec 16
  arcount : BitVec 16
  deriving DecidableEq, Repr

/-- The names of the ten registers of the bank (`10_state.md` R15, R16). -/
inductive Field where
  | id | qr | opcode | flags | z | rcode | qdcount | ancount | nscount | arcount
  deriving DecidableEq, Repr

/-- The width of each register (`10_state.md` R16). -/
@[reducible] def Field.width : Field → Nat
  | .id => 16
  | .qr => 1
  | .opcode => 4
  | .flags => 4
  | .z => 3
  | .rcode => 4
  | .qdcount => 16
  | .ancount => 16
  | .nscount => 16
  | .arcount => 16

/-- The register that the notation `x[i]` names (`10_state.md` R16). -/
def Field.ofIndex : Nat → Option Field
  | 0 => some .id
  | 1 => some .qr
  | 2 => some .opcode
  | 3 => some .flags
  | 4 => some .z
  | 5 => some .rcode
  | 6 => some .qdcount
  | 7 => some .ancount
  | 8 => some .nscount
  | 9 => some .arcount
  | _ => none

end Sys2Proof
end

