-- ==== Sys2Proof/Config.lean ====
section
/-! DEFINITION. The parameters of the unit with this hardware's values (`00_scope.md` R6, R7), and the free value: the answer
of the random-bytes provider where nothing in the state fixes it. -/

namespace Sys2Proof

/-- What SETQM with isQuery = 0 does to FLAGS, Z and RCODE (`00_scope.md` R7; `41_header_setters.md` R62). -/
inductive RespModePolicy where
  | hold
  | clear
  deriving DecidableEq, Repr

/-- How DEC unpacks Opcode (`00_scope.md` R7; `43_dns_header_decoder.md` R77). -/
inductive OpcodeMode where
  | field4
  | bit11
  deriving DecidableEq, Repr

/-- How the provider's two bytes form the ID (`00_scope.md` R7, `RNG_BYTE_ORDER`). The value `buffer0Low` is the model's name
for the order this hardware does not take. (DESIGN CHOICE, safe, log 14.) -/
inductive RngByteOrder where
  | buffer0High
  | buffer0Low
  deriving DecidableEq, Repr

/-- What `H.ID` holds after an EntropyFailure (`00_scope.md` R7, `ID_ON_FAIL`; `40_csprng_id_injector.md` R57). The value
`zero` is the reading R57 names and this hardware does not take. (DESIGN CHOICE, safe, log 14.) -/
inductive IdOnFail where
  | hold
  | zero
  deriving DecidableEq, Repr

/-- The provider's answer to one `fill` request: two bytes, or failure (`40_csprng_id_injector.md` R56). A failure carries no
bytes. -/
inductive Draw where
  | success (b0 b1 : Byte)
  | failure
  deriving DecidableEq, Repr, Inhabited

/-- `HDR_BYTES` (`00_scope.md` R6). -/
def Config.hdrBytes : Nat := 12

/-- `CMD_W` (`00_scope.md` R7). -/
def Config.cmdW : Nat := 20

/-- `LEN_W`: the bits of the DEC length operand, so that a presented length is below `2 ^ LEN_W` (`00_scope.md` R7). -/
def Config.lenW : Nat := 16

/-- `RESP_MODE_POLICY` (`00_scope.md` R7). -/
def Config.respModePolicy : RespModePolicy := .hold

/-- `DEC_OPCODE_MODE` (`00_scope.md` R7). -/
def Config.decOpcodeMode : OpcodeMode := .field4

/-- `STRICT_Z` (`00_scope.md` R7). -/
def Config.strictZ : Bool := false

/-- `RESET_H` (`00_scope.md` R7; `10_state.md` R23). -/
def Config.resetH : Hdr :=
  { id := 0, qr := 0, opcode := 0, flags := 0, z := 0, rcode := 0, qdcount := 0, ancount := 0, nscount := 0, arcount := 0 }

/-- `RNG_BYTE_ORDER` (`00_scope.md` R7). -/
def Config.rngByteOrder : RngByteOrder := .buffer0High

/-- `ID_ON_FAIL` (`00_scope.md` R7). -/
def Config.idOnFail : IdOnFail := .hold

/-- The status codes (`00_scope.md` R7; `60_exceptions.md` R81). -/
def Config.statusOk : BitVec 2 := 0
def Config.statusEntropyFailure : BitVec 2 := 1
def Config.statusFormatError : BitVec 2 := 2
def Config.statusIllegalCommand : BitVec 2 := 3

/-- FREE VALUE (log 2): the provider's answer to its n-th request where `State.draws` holds none. It has no body: nothing is
known of it, neither the bytes nor whether the provider succeeds (`93_implementation_defined.md` U1, U2, U3;
`70_reset_and_hazards.md` R95). -/
opaque Config.freeDraw : Nat → Draw

end Sys2Proof
end

