-- ==== Sys2Proof/Syntax.lean ====
section
/-! DEFINITION. The command as the port carries it (`Cmd`) and the decoded command (`Instr`), one constructor per row of
spec/opcode_table.json. -/

namespace Sys2Proof

/-- What the command port carries for one command: the command word and the data bus (`30_encoding.md` R45). -/
structure Cmd where
  word : CmdWord
  din  : Bus
  deriving DecidableEq, Repr

/-- The commands (`30_encoding.md` R47), with the operands of their formats (R46, R48), and the eight reserved operation
numbers (R50). -/
inductive Instr where
  /-- NEW (`41_header_setters.md` R60). -/
  | new
  /-- SETID (`40_csprng_id_injector.md` R55). -/
  | setid
  /-- SETQM isQuery (`41_header_setters.md` R61). -/
  | setqm (isQuery : Bool)
  /-- SETQD n (`41_header_setters.md` R63). -/
  | setqd (n : Word)
  /-- SETNS n (`41_header_setters.md` R64). -/
  | setns (n : Word)
  /-- SETAR n (`41_header_setters.md` R65). -/
  | setar (n : Word)
  /-- ENC (`42_dns_header_encoder.md` R68). -/
  | enc
  /-- DEC len, bytes (`43_dns_header_decoder.md` R73): the length of the buffer `B` and the first min(len, 12) bytes of it,
  the ones the data bus presents (`20_memory.md` R27). -/
  | dec (len : Word) (bytes : List Byte)
  /-- Operation number 8 (`30_encoding.md` R50), and so on to 15. -/
  | reserved8
  | reserved9
  | reservedA
  | reservedB
  | reservedC
  | reservedD
  | reservedE
  | reservedF
  deriving DecidableEq, Repr

end Sys2Proof
end

