-- ==== Sys2Proof/Machine/Operands.lean ====
section
/-! DEFINITION. The operand forms of the command word and the data bus (`30_encoding.md` R46, R48; `20_memory.md` R26, R27),
and the two halves of a wire word (`20_memory.md` R30). -/

namespace Sys2Proof

/-- `op = cmd[19:16]` (`30_encoding.md` R46). -/
def opField (w : CmdWord) : BitVec 4 := w.extractLsb' 16 4

/-- `arg = cmd[15:0]`: the operand of format W, unchanged (`30_encoding.md` R46, R48). -/
def argField (w : CmdWord) : Word := w.extractLsb' 0 16

/-- The operand of format L: the low `LEN_W` bits of `arg`, an unsigned byte count (`30_encoding.md` R48; `00_scope.md` R7). -/
def lenOperand (w : CmdWord) : Word := (w.extractLsb' 0 Config.lenW).setWidth 16

/-- The operand of format B: `arg[0]` (`30_encoding.md` R48). -/
def boolOperand (w : CmdWord) : Bool := (argField w).getLsbD 0

/-- The command word made of its two fields (`30_encoding.md` R46). -/
def cmdWord (op : BitVec 4) (arg : Word) : CmdWord := op ++ arg

/-- A boolean operand as the assembler writes it, with the ignored bits 0 (`30_encoding.md` R49, R54). -/
def boolArg (b : Bool) : Word := if b then 1 else 0

/-- Byte k of a 96-bit bus: bits `95-8k` to `88-8k` (`20_memory.md` R26, R27). -/
def busByte (v : Bus) (k : Nat) : Byte := v.extractLsb' (88 - 8 * k) 8

/-- The twelve-byte bus value that holds these bytes, byte 0 most significant; bytes that are not given are 0
(`20_memory.md` R26, R27). -/
def busOfBytes (bs : List Byte) : Bus :=
  bs.getD 0 0 ++ bs.getD 1 0 ++ bs.getD 2 0 ++ bs.getD 3 0 ++ bs.getD 4 0 ++ bs.getD 5 0 ++
    bs.getD 6 0 ++ bs.getD 7 0 ++ bs.getD 8 0 ++ bs.getD 9 0 ++ bs.getD 10 0 ++ bs.getD 11 0

/-- The bytes of `B` that the data bus presents: the first min(len, 12) (`20_memory.md` R27). -/
def presentedBytes (len : Word) (din : Bus) : List Byte :=
  (List.range (min len.toNat Config.hdrBytes)).map (busByte din)

/-- The byte of a wire word at the lower offset (`20_memory.md` R30). -/
def hiByte (w : Word) : Byte := w.extractLsb' 8 8

/-- The byte of a wire word at the higher offset (`20_memory.md` R30). -/
def loByte (w : Word) : Byte := w.extractLsb' 0 8

/-- The ID that the provider's two bytes form (`40_csprng_id_injector.md` R55; `00_scope.md` R7, `RNG_BYTE_ORDER`). -/
def idOfBytes : RngByteOrder → Byte → Byte → Word
  | .buffer0High, b0, b1 => b0 ++ b1
  | .buffer0Low, b0, b1 => b1 ++ b0

end Sys2Proof
end

