-- ==== Sys2Proof/WellFormed.lean ====
section
/-! DEFINITION. The one check on a decoded command: DEC holds exactly the bytes the data bus presents. Every other operand
has its width in its type (`30_encoding.md` R48: a width impossibility, not a check). -/

namespace Sys2Proof

/-- DEC holds the first min(len, 12) bytes of its buffer (`20_memory.md` R27; `30_encoding.md` R54). -/
def Instr.wellFormed : Instr → Bool
  | .dec len bytes => bytes.length == min len.toNat 12
  | .new | .setid | .setqm _ | .setqd _ | .setns _ | .setar _ | .enc => true
  | .reserved8 | .reserved9 | .reservedA | .reservedB => true
  | .reservedC | .reservedD | .reservedE | .reservedF => true

end Sys2Proof
end

