-- ==== Sys2Proof/Decode.lean ====
section
/-! DEFINITION. The decoder, total on every command (`00_scope.md` R14; `30_encoding.md` R47, R50), then the encoder from the
same table (R47, R54). -/

namespace Sys2Proof

/-- The command that a command word and its data bus are (`30_encoding.md` R47). Only `op` selects it. -/
def decode (c : Cmd) : Instr :=
  match (opField c.word).toNat with
  | 0 => .new
  | 1 => .setid
  | 2 => .setqm (boolOperand c.word)
  | 3 => .setqd (argField c.word)
  | 4 => .setns (argField c.word)
  | 5 => .setar (argField c.word)
  | 6 => .enc
  | 7 => .dec (lenOperand c.word) (presentedBytes (lenOperand c.word) c.din)
  | 8 => .reserved8
  | 9 => .reserved9
  | 10 => .reservedA
  | 11 => .reservedB
  | 12 => .reservedC
  | 13 => .reservedD
  | 14 => .reservedE
  | _ => .reservedF

/-- The command the assembler writes (`30_encoding.md` R54): ignored bits of `arg` are 0 (R49). The data bus of a command
other than DEC, and its bytes beyond the presented ones, are 0. (DESIGN CHOICE, safe, log 9.) -/
def encode : Instr → Cmd
  | .new => ⟨cmdWord 0x0 0, 0⟩
  | .setid => ⟨cmdWord 0x1 0, 0⟩
  | .setqm q => ⟨cmdWord 0x2 (boolArg q), 0⟩
  | .setqd n => ⟨cmdWord 0x3 n, 0⟩
  | .setns n => ⟨cmdWord 0x4 n, 0⟩
  | .setar n => ⟨cmdWord 0x5 n, 0⟩
  | .enc => ⟨cmdWord 0x6 0, 0⟩
  | .dec len bytes => ⟨cmdWord 0x7 len, busOfBytes bytes⟩
  | .reserved8 => ⟨cmdWord 0x8 0, 0⟩
  | .reserved9 => ⟨cmdWord 0x9 0, 0⟩
  | .reservedA => ⟨cmdWord 0xA 0, 0⟩
  | .reservedB => ⟨cmdWord 0xB 0, 0⟩
  | .reservedC => ⟨cmdWord 0xC 0, 0⟩
  | .reservedD => ⟨cmdWord 0xD 0, 0⟩
  | .reservedE => ⟨cmdWord 0xE 0, 0⟩
  | .reservedF => ⟨cmdWord 0xF 0, 0⟩

/-- Why bits are no command: more than the 20 bits of a command word (`30_encoding.md` R46). -/
inductive DecodeReject where
  | wordTooWide
  deriving DecidableEq, Repr

/-- The command whose word has these bits, bit 0 least significant, with an all-zero data bus. (DESIGN CHOICE, safe, log 10.) -/
def cmdOfBits (w : Nat) : Cmd := ⟨BitVec.ofNat 20 w, 0⟩

/-- The decoder on a natural number: a command word has `CMD_W` bits and nothing wider is one (`30_encoding.md` R51). -/
def decodeBits (w : Nat) : Except DecodeReject Instr :=
  if w < 2 ^ Config.cmdW then .ok (decode (cmdOfBits w)) else .error .wordTooWide

/-- The instruction read from the table's bits; the bits from `nbits` up are 0. -/
def decodeTableWord (nbits w : Nat) : Option Instr :=
  match decodeBits (w % 2 ^ nbits) with
  | .ok i => some i
  | .error _ => none

end Sys2Proof
end

