-- ==== Sys2Proof/Machine/Flags.lean ====
section
/-! DEFINITION. The flags word: the packing function `FW`, the unpacking function `UNFW` (`30_encoding.md` R38, R39, R41) and
the names of the bits of the flags nibble (`10_state.md` R17). The unit has no condition flags (R19). -/

namespace Sys2Proof.Machine

/-- The Opcode-nonzero-indicator (`30_encoding.md` R39; `42_dns_header_encoder.md` R70). -/
def opbit (opcode : BitVec 4) : BitVec 1 := if opcode ≠ 0 then 1 else 0

/-- `FW` (`30_encoding.md` R39). -/
def fw (h : Hdr) : Word := h.qr ++ (0 : BitVec 3) ++ opbit h.opcode ++ h.flags ++ h.z ++ h.rcode

/-- The five packed fields, as `UNFW` returns them (`30_encoding.md` R41). -/
structure FlagsFields where
  qr     : BitVec 1
  opcode : BitVec 4
  flags  : BitVec 4
  z      : BitVec 3
  rcode  : BitVec 4
  deriving DecidableEq, Repr

/-- The Opcode that a flags word holds, in each mode (`30_encoding.md` R41; `43_dns_header_decoder.md` R77). -/
def unpackOpcode : OpcodeMode → Word → BitVec 4
  | .field4, w => w.extractLsb' 11 4
  | .bit11, w => (w.extractLsb' 11 1).setWidth 4

/-- `UNFW` (`30_encoding.md` R41). -/
def unfw (mode : OpcodeMode) (w : Word) : FlagsFields :=
  { qr := w.extractLsb' 15 1
    opcode := unpackOpcode mode w
    flags := w.extractLsb' 7 4
    z := w.extractLsb' 4 3
    rcode := w.extractLsb' 0 4 }

/-- AA is `FLAGS[3]` (`10_state.md` R17). -/
def aa (flags : BitVec 4) : Bool := flags.getLsbD 3

/-- TC is `FLAGS[2]` (`10_state.md` R17). -/
def tc (flags : BitVec 4) : Bool := flags.getLsbD 2

/-- RD is `FLAGS[1]` (`10_state.md` R17). -/
def rd (flags : BitVec 4) : Bool := flags.getLsbD 1

/-- RA is `FLAGS[0]` (`10_state.md` R17). -/
def ra (flags : BitVec 4) : Bool := flags.getLsbD 0

end Sys2Proof.Machine
end

