-- ==== Sys2Proof/Machine/State.lean ====
section
/-! DEFINITION. The state of the machine as plain data: the register bank `H` (the spec's whole state, `10_state.md` R15, R19,
R20) and, as the model's own fields, what the other two agents of a step hold (`00_scope.md` R13, R14): the host's events,
the provider's answers and the responses delivered. With them the reasons a step can stop, and the state after reset. -/

namespace Sys2Proof.Machine

/-- The three error kinds (`60_exceptions.md` R81). An error is a response, not a stop. -/
inductive Err where
  | entropyFailure
  | formatError
  | illegalCommand
  deriving DecidableEq, Repr

/-- The response record (`30_encoding.md` R52); `decHdr` is the ten `dec_` fields together. -/
structure Rsp where
  status   : BitVec 2
  encBytes : Bus
  decHdr   : Hdr
  deriving DecidableEq, Repr

/-- One thing the host does to the unit: present a command, or give the reset event (`70_reset_and_hazards.md` R94, R105). -/
inductive HostEvent where
  | command (c : Cmd)
  | reset
  deriving DecidableEq, Repr

/-- The state. Only `hdr` is the unit's; the others are the model's own (logs 1, 2, 3). -/
structure State where
  /-- The register bank `H` (`10_state.md` R15). -/
  hdr      : Hdr
  /-- The host's events not yet given, the next one first (`00_scope.md` R14, "the command stream"). -/
  host     : List HostEvent
  /-- The provider's answers already fixed, the next one first; where it is empty the answer is `Config.freeDraw`. -/
  draws    : List Draw
  /-- How many `fill` requests have been made (`40_csprng_id_injector.md` R56). -/
  requests : Nat
  /-- The responses delivered, the oldest first (`70_reset_and_hazards.md` R106). -/
  rsps     : List Rsp
  deriving DecidableEq, Repr

/-- Why the machine stops with a fault. -/
inductive Fault where
  /-- Raised by DEC alone, on a term that holds fewer bytes than min(len, 12), which the decoder never makes
  (`43_dns_header_decoder.md` R75: the unit never reads out of bounds). Safe: the model stops where the hardware has no such
  command (log 8). -/
  | bufferReadOutOfBounds
  deriving DecidableEq, Repr

/-- Why an instruction has no meaning. -/
inductive Refusal where
  /-- For an arm of `exec` without a meaning, by its mnemonic; no arm raises it. Safe: the model stops. -/
  | notModelled (mnemonic : String)
  deriving DecidableEq, Repr

/-- The machine right after reset: `H` holds RESET_H (`10_state.md` R23; `70_reset_and_hazards.md` R94). The host has given
nothing, no answer of the provider is fixed and no response is delivered. (DESIGN CHOICE for the four model fields, safe,
logs 1, 2, 3.) -/
def State.reset : State :=
  { hdr := Config.resetH, host := [], draws := [], requests := 0, rsps := [] }

end Sys2Proof.Machine
end

