-- ==== Sys2Proof/Machine/Ops.lean ====
section
/-! DEFINITION. The named operations the meanings share: reading and writing a register of `H` (`00_scope.md` R10), the buffer
accesses MemRead and MemWrite (`20_memory.md` R28, R29), one request to the provider (`40_csprng_id_injector.md` R56),
delivering a response and raising an error (`00_scope.md` R12; `60_exceptions.md` R82, R83), and the reset event. -/

namespace Sys2Proof.Machine

/-- `H.F` (`00_scope.md` R10). -/
def readField (h : Hdr) : (f : Field) → BitVec f.width
  | .id => h.id
  | .qr => h.qr
  | .opcode => h.opcode
  | .flags => h.flags
  | .z => h.z
  | .rcode => h.rcode
  | .qdcount => h.qdcount
  | .ancount => h.ancount
  | .nscount => h.nscount
  | .arcount => h.arcount

/-- `H.F <- v` (`00_scope.md` R10). -/
def writeField (h : Hdr) : (f : Field) → BitVec f.width → Hdr
  | .id, v => { h with id := v }
  | .qr, v => { h with qr := v }
  | .opcode, v => { h with opcode := v }
  | .flags, v => { h with flags := v }
  | .z, v => { h with z := v }
  | .rcode, v => { h with rcode := v }
  | .qdcount, v => { h with qdcount := v }
  | .ancount, v => { h with ancount := v }
  | .nscount, v => { h with nscount := v }
  | .arcount, v => { h with arcount := v }

/-- `H <- h` (`00_scope.md` R10). -/
def setHdr (h : Hdr) (s : State) : State := { s with hdr := h }

/-- `MemRead(off, 1)` on a buffer of length `len` (`20_memory.md` R28); nothing where the rule defines nothing. -/
def memRead1 (len : Nat) (b : List Byte) (off : Nat) : Option Byte :=
  if off + 1 ≤ len then b[off]? else none

/-- `MemRead(off, 2)` on a buffer of length `len` (`20_memory.md` R28, R30): the byte at the lower offset is the high one. -/
def memRead2 (len : Nat) (b : List Byte) (off : Nat) : Option Word :=
  if off + 2 ≤ len then
    match b[off]?, b[off + 1]? with
    | some hi, some lo => some (hi ++ lo)
    | _, _ => none
  else none

/-- The output buffer `W` before any write: twelve unwritten bytes (`20_memory.md` R26). -/
def blankW : List (Option Byte) := List.replicate Config.hdrBytes none

/-- `MemWrite(off, 1, v)` (`20_memory.md` R29); nothing where the rule defines nothing. -/
def memWrite1 (w : List (Option Byte)) (off : Nat) (v : Byte) : Option (List (Option Byte)) :=
  if off + 1 ≤ Config.hdrBytes then some (w.set off (some v)) else none

/-- `MemWrite(off, 2, v)` (`20_memory.md` R29, R30). -/
def memWrite2 (w : List (Option Byte)) (off : Nat) (v : Word) : Option (List (Option Byte)) :=
  if off + 2 ≤ Config.hdrBytes then some ((w.set off (some (hiByte v))).set (off + 1) (some (loByte v))) else none

/-- The answer the next `fill` request gets: the one the state fixes, else a free value (`40_csprng_id_injector.md` R56; log 2). -/
def nextDraw (s : State) : Draw :=
  match s.draws with
  | d :: _ => d
  | [] => Config.freeDraw s.requests

/-- The state after one `fill` request has been answered (`40_csprng_id_injector.md` R56). -/
def afterFill (s : State) : State := { s with draws := s.draws.tail, requests := s.requests + 1 }

/-- The host takes one response (`30_encoding.md` R52; `60_exceptions.md` R82). -/
def deliver (r : Rsp) (s : State) : State := { s with rsps := s.rsps ++ [r] }

/-- The `dec_` fields of a response in which they are not meaningful, all 0 (`30_encoding.md` R52). -/
def zeroHdr : Hdr :=
  { id := 0, qr := 0, opcode := 0, flags := 0, z := 0, rcode := 0, qdcount := 0, ancount := 0, nscount := 0, arcount := 0 }

/-- The response "status OK (0), data 0" (`30_encoding.md` R53). -/
def okRsp : Rsp := { status := Config.statusOk, encBytes := 0, decHdr := zeroHdr }

/-- The response to a successful ENC (`30_encoding.md` R53). -/
def bytesRsp (v : Bus) : Rsp := { status := Config.statusOk, encBytes := v, decHdr := zeroHdr }

/-- The response to a successful DEC (`30_encoding.md` R53). -/
def headerRsp (h : Hdr) : Rsp := { status := Config.statusOk, encBytes := 0, decHdr := h }

/-- The status code of an error (`60_exceptions.md` R81). -/
def errStatus : Err → BitVec 2
  | .entropyFailure => Config.statusEntropyFailure
  | .formatError => Config.statusFormatError
  | .illegalCommand => Config.statusIllegalCommand

/-- The response that carries an error: its code and all-zero data (`60_exceptions.md` R83). -/
def errRsp (e : Err) : Rsp := { status := errStatus e, encBytes := 0, decHdr := zeroHdr }

/-- `raise E`: taking an error. The response carries it, `H` is unchanged, nothing is saved and control goes nowhere
(`00_scope.md` R12; `60_exceptions.md` R82). There is no return from it: the unit is ready for the next command (R84). -/
def raise (e : Err) (s : State) : State := deliver (errRsp e) s

/-- What SETID leaves in `H` when the provider fails (`40_csprng_id_injector.md` R57; `00_scope.md` R7, `ID_ON_FAIL`). -/
def idAfterFailure : IdOnFail → Hdr → Hdr
  | .hold, h => h
  | .zero, h => writeField h .id 0

/-- The reset event: `H` takes RESET_H; nothing outside the unit changes and no response is given
(`70_reset_and_hazards.md` R94, R95, R105; DEDUCED, safe, log 6). -/
def resetEvent (s : State) : State := setHdr Config.resetH s

end Sys2Proof.Machine
end

