-- ==== Sys2Proof/Machine/Decoder.lean ====
section
/-! DEFINITION. dns_header_decoder: the function `Dec` (`43_dns_header_decoder.md` R72, R76, R77) and the command DEC (R73). -/

namespace Sys2Proof.Machine

/-- What `Dec` answers: a header or FormatError (`43_dns_header_decoder.md` R72). `outOfBounds` is a read the buffer does not
serve; R75 says that there is none. -/
inductive DecResult where
  | header (h : Hdr)
  | formatError
  | outOfBounds
  deriving DecidableEq, Repr

/-- The header of the six wire words, or FormatError under the strict-Z option (`43_dns_header_decoder.md` R72, R76). -/
def headerOfWords (mode : OpcodeMode) (strictZ : Bool) (id flagsWord qd an ns ar : Word) : DecResult :=
  let u := unfw mode flagsWord
  if strictZ = true ∧ u.z ≠ 0 then .formatError
  else .header
    { id := id, qr := u.qr, opcode := u.opcode, flags := u.flags, z := u.z, rcode := u.rcode,
      qdcount := qd, ancount := an, nscount := ns, arcount := ar }

/-- `Dec` on a buffer of length `len` whose presented bytes are `b` (`43_dns_header_decoder.md` R72): the length is tested
first, and no byte is read unless it is 12 (R75). -/
def decBuffer (mode : OpcodeMode) (strictZ : Bool) (len : Nat) (b : List Byte) : DecResult :=
  if len ≠ Config.hdrBytes then .formatError
  else
    match memRead2 len b 0, memRead2 len b 2, memRead2 len b 4, memRead2 len b 6, memRead2 len b 8, memRead2 len b 10 with
    | some id, some flagsWord, some qd, some an, some ns, some ar => headerOfWords mode strictZ id flagsWord qd an ns ar
    | _, _, _, _, _, _ => .outOfBounds

/-- `Dec` on a finite byte sequence (`43_dns_header_decoder.md` R72). -/
def decBytes (mode : OpcodeMode) (strictZ : Bool) (b : List Byte) : DecResult := decBuffer mode strictZ b.length b

/-- DEC (`43_dns_header_decoder.md` R73, R74): responds with the header or raises FormatError; `H` is neither read nor written.
The fault is for a term that is not well formed (log 8). -/
def execDec (len : Word) (bytes : List Byte) (s : State) : Host.Outcome State Fault Refusal :=
  match decBuffer Config.decOpcodeMode Config.strictZ len.toNat bytes with
  | .header h => .next (deliver (headerRsp h) s)
  | .formatError => .next (raise .formatError s)
  | .outOfBounds => .fault .bufferReadOutOfBounds

end Sys2Proof.Machine
end

