-- ==== Sys2Proof/Machine/Encoder.lean ====
section
/-! DEFINITION. dns_header_encoder: the function `Enc` (`42_dns_header_encoder.md` R67) and the command ENC (R68). -/

namespace Sys2Proof.Machine

/-- `Enc`: the twelve bytes `W[0]` to `W[11]` (`42_dns_header_encoder.md` R67; `30_encoding.md` R37). -/
def encHdr (h : Hdr) : List Byte :=
  [hiByte h.id, loByte h.id, hiByte (fw h), loByte (fw h), hiByte h.qdcount, loByte h.qdcount,
   hiByte h.ancount, loByte h.ancount, hiByte h.nscount, loByte h.nscount, hiByte h.arcount, loByte h.arcount]

/-- `Enc` by MemWrite (`42_dns_header_encoder.md` R67, "Equivalently"). -/
def encByMemWrite (h : Hdr) : Option (List (Option Byte)) := do
  let w ← memWrite2 blankW 0 h.id
  let w ← memWrite2 w 2 (fw h)
  let w ← memWrite2 w 4 h.qdcount
  let w ← memWrite2 w 6 h.ancount
  let w ← memWrite2 w 8 h.nscount
  memWrite2 w 10 h.arcount

/-- ENC (`42_dns_header_encoder.md` R68): responds with `Enc(H)`; `H` is not written and no ID is asked for (R71). -/
def execEnc (s : State) : Host.Outcome State Fault Refusal :=
  .next (deliver (bytesRsp (busOfBytes (encHdr s.hdr))) s)

end Sys2Proof.Machine
end

