-- ==== Sys2Proof/Machine/IdInjector.lean ====
section
/-! DEFINITION. csprng_id_injector: SETID (`40_csprng_id_injector.md` R55 to R59). -/

namespace Sys2Proof.Machine

/-- SETID: one request to the provider. Success writes `H.ID` and responds status OK (R55); failure raises EntropyFailure and
writes nothing (R57). Both answers are admitted at every SETID (R56, R58). -/
def execSetid (s : State) : Host.Outcome State Fault Refusal :=
  .next (match nextDraw s with
    | .success b0 b1 =>
      deliver okRsp (setHdr (writeField s.hdr .id (idOfBytes Config.rngByteOrder b0 b1)) (afterFill s))
    | .failure => raise .entropyFailure (setHdr (idAfterFailure Config.idOnFail s.hdr) (afterFill s)))

end Sys2Proof.Machine
end

