-- ==== Sys2Proof/Machine/Reserved.lean ====
section
/-! DEFINITION. The eight reserved operation numbers: each raises IllegalCommand (`30_encoding.md` R50; `60_exceptions.md` R81,
R85: nothing else of the command is examined). -/

namespace Sys2Proof.Machine

/-- A reserved command: status 3, data 0, `H` unchanged (`30_encoding.md` R50, R53). -/
def illegal (s : State) : Host.Outcome State Fault Refusal := .next (raise .illegalCommand s)

/-- Operation number 0x8 (`30_encoding.md` R50). -/
def execReserved8 (s : State) : Host.Outcome State Fault Refusal := illegal s

/-- Operation number 0x9 (`30_encoding.md` R50). -/
def execReserved9 (s : State) : Host.Outcome State Fault Refusal := illegal s

/-- Operation number 0xA (`30_encoding.md` R50). -/
def execReservedA (s : State) : Host.Outcome State Fault Refusal := illegal s

/-- Operation number 0xB (`30_encoding.md` R50). -/
def execReservedB (s : State) : Host.Outcome State Fault Refusal := illegal s

/-- Operation number 0xC (`30_encoding.md` R50). -/
def execReservedC (s : State) : Host.Outcome State Fault Refusal := illegal s

/-- Operation number 0xD (`30_encoding.md` R50). -/
def execReservedD (s : State) : Host.Outcome State Fault Refusal := illegal s

/-- Operation number 0xE (`30_encoding.md` R50). -/
def execReservedE (s : State) : Host.Outcome State Fault Refusal := illegal s

/-- Operation number 0xF (`30_encoding.md` R50). -/
def execReservedF (s : State) : Host.Outcome State Fault Refusal := illegal s

end Sys2Proof.Machine
end

