-- ==== Sys2Proof/Machine/Setters.lean ====
section
/-! DEFINITION. The header setters NEW, SETQM, SETQD, SETNS and SETAR (`41_header_setters.md` R60 to R65), as functions of a
header value and as commands. -/

namespace Sys2Proof.Machine

/-- The writes of NEW (`41_header_setters.md` R60). -/
def newHdr : Hdr := Config.resetH

/-- The writes of SETQM with isQuery = 1 (`41_header_setters.md` R61). -/
def queryFraming (h : Hdr) : Hdr :=
  let h := writeField h .qr 0
  let h := writeField h .opcode 0
  let h := writeField h .flags 2
  let h := writeField h .z 0
  let h := writeField h .rcode 0
  let h := writeField h .nscount 0
  writeField h .arcount 0

/-- The writes of SETQM with isQuery = 0 (`41_header_setters.md` R61, R62). -/
def responseFraming (policy : RespModePolicy) (h : Hdr) : Hdr :=
  let h := writeField h .qr 1
  let h := writeField h .opcode 1
  match policy with
  | .hold => h
  | .clear => writeField (writeField (writeField h .flags 0) .z 0) .rcode 0

/-- The writes of SETQM (`41_header_setters.md` R61). -/
def setQueryMode (policy : RespModePolicy) (isQuery : Bool) (h : Hdr) : Hdr :=
  if isQuery then queryFraming h else responseFraming policy h

/-- A setter writes `H` and responds status OK, data 0 (`30_encoding.md` R53). -/
def setter (h : Hdr) (s : State) : Host.Outcome State Fault Refusal := .next (deliver okRsp (setHdr h s))

/-- NEW (`41_header_setters.md` R60). -/
def execNew (s : State) : Host.Outcome State Fault Refusal := setter newHdr s

/-- SETQM (`41_header_setters.md` R61, R62). -/
def execSetqm (isQuery : Bool) (s : State) : Host.Outcome State Fault Refusal :=
  setter (setQueryMode Config.respModePolicy isQuery s.hdr) s

/-- SETQD (`41_header_setters.md` R63). -/
def execSetqd (n : Word) (s : State) : Host.Outcome State Fault Refusal := setter (writeField s.hdr .qdcount n) s

/-- SETNS (`41_header_setters.md` R64). -/
def execSetns (n : Word) (s : State) : Host.Outcome State Fault Refusal := setter (writeField s.hdr .nscount n) s

/-- SETAR (`41_header_setters.md` R65). -/
def execSetar (n : Word) (s : State) : Host.Outcome State Fault Refusal := setter (writeField s.hdr .arcount n) s

end Sys2Proof.Machine
end

