-- ==== Sys2Proof/Machine/Dispatch.lean ====
section
/-! DEFINITION. One arm per constructor of Instr, each one call of its meaning. -/

namespace Sys2Proof.Machine

def exec (i : Instr) (s : State) : Host.Outcome State Fault Refusal :=
  match i with
  | .new => Sys2Proof.Machine.execNew s
  | .setid => Sys2Proof.Machine.execSetid s
  | .setqm isQuery => Sys2Proof.Machine.execSetqm isQuery s
  | .setqd n => Sys2Proof.Machine.execSetqd n s
  | .setns n => Sys2Proof.Machine.execSetns n s
  | .setar n => Sys2Proof.Machine.execSetar n s
  | .enc => Sys2Proof.Machine.execEnc s
  | .dec len bytes => Sys2Proof.Machine.execDec len bytes s
  | .reserved8 => Sys2Proof.Machine.execReserved8 s
  | .reserved9 => Sys2Proof.Machine.execReserved9 s
  | .reservedA => Sys2Proof.Machine.execReservedA s
  | .reservedB => Sys2Proof.Machine.execReservedB s
  | .reservedC => Sys2Proof.Machine.execReservedC s
  | .reservedD => Sys2Proof.Machine.execReservedD s
  | .reservedE => Sys2Proof.Machine.execReservedE s
  | .reservedF => Sys2Proof.Machine.execReservedF s

end Sys2Proof.Machine
end

