-- ==== Sys2Proof/Machine/Step.lean ====
section
/-! DEFINITION. One step: the host's next event takes effect, wholly (`00_scope.md` R14; `20_memory.md` R34). -/

namespace Sys2Proof.Machine

/-- One step. A command is decoded and executed with the event taken from the host's list; the reset event resets `H`; with no
event the unit is idle and keeps `H` (`60_exceptions.md` R93; DEDUCED, safe, log 4). -/
def step (s : State) : Host.Outcome State Fault Refusal :=
  match s.host with
  | [] => .next s
  | .command c :: rest => exec (decode c) { s with host := rest }
  | .reset :: rest => .next (resetEvent { s with host := rest })

/-- The state with that command as the host's next event, the data bus 0 (log 5). -/
def State.withFetchWord (s : State) (nbits w : Nat) : State :=
  { s with host := .command (cmdOfBits (w % 2 ^ nbits)) :: s.host }

end Sys2Proof.Machine
end

