-- ==== Sys2Proof/Machine/Assembler.lean ====
section
/-! DEFINITION. The notation of `30_encoding.md` R54 as host events: a command as the assembler writes it, and the two
pseudo-commands QUERY and RESET. -/

namespace Sys2Proof.Machine

/-- The event that presents this command as the assembler writes it. -/
def asmCommand (i : Instr) : HostEvent := .command (encode i)

/-- `QUERY n`: `NEW; SETQM 1; SETQD n; SETID` (`30_encoding.md` R54). -/
def asmQuery (n : Word) : List HostEvent :=
  [asmCommand .new, asmCommand (.setqm true), asmCommand (.setqd n), asmCommand .setid]

/-- `RESET`: the reset event, no command (`30_encoding.md` R54; `70_reset_and_hazards.md` R94). -/
def asmReset : List HostEvent := [.reset]

end Sys2Proof.Machine
end

