-- ==== Sys2Proof/Machine/Transaction.lean ====
section
/-! DEFINITION. The unit as the pure function of `00_scope.md` R14, `step : Hdr x Cmd x Draw -> Hdr x Rsp`, written from the
bits of the command word and the data bus alone, without the decoder, the buffers or the state: what the machine is claimed to
refine. No meaning calls it. -/

namespace Sys2Proof.Machine

/-- The response that carries a status and nothing else (`30_encoding.md` R53). -/
def statusRsp (status : BitVec 2) : Rsp := { status := status, encBytes := 0, decHdr := ⟨0, 0, 0, 0, 0, 0, 0, 0, 0, 0⟩ }

/-- The 96 bits of a header in wire order (`42_dns_header_encoder.md` R67, "as one 96-bit value"). -/
def encBits (h : Hdr) : Bus := h.id ++ fw h ++ h.qdcount ++ h.ancount ++ h.nscount ++ h.arcount

/-- The 96 bits of a twelve-byte buffer cut into the ten fields in order (`43_dns_header_decoder.md` R72). -/
def cutBits (v : Bus) : Hdr :=
  { id := v.extractLsb' 80 16, qr := v.extractLsb' 79 1, opcode := v.extractLsb' 75 4, flags := v.extractLsb' 71 4,
    z := v.extractLsb' 68 3, rcode := v.extractLsb' 64 4, qdcount := v.extractLsb' 48 16, ancount := v.extractLsb' 32 16,
    nscount := v.extractLsb' 16 16, arcount := v.extractLsb' 0 16 }

/-- The transition of R14 with this hardware's parameters (`00_scope.md` R7): next header value and response. -/
def transact (h : Hdr) (c : Cmd) (d : Draw) : Hdr × Rsp :=
  let op := c.word.extractLsb' 16 4
  let arg := c.word.extractLsb' 0 16
  if op = 0 then (⟨0, 0, 0, 0, 0, 0, 0, 0, 0, 0⟩, statusRsp 0)
  else if op = 1 then
    match d with
    | .success b0 b1 => ({ h with id := b0 ++ b1 }, statusRsp 0)
    | .failure => (h, statusRsp 1)
  else if op = 2 then
    if arg.getLsbD 0 then
      ({ h with qr := 0, opcode := 0, flags := 2, z := 0, rcode := 0, nscount := 0, arcount := 0 }, statusRsp 0)
    else ({ h with qr := 1, opcode := 1 }, statusRsp 0)
  else if op = 3 then ({ h with qdcount := arg }, statusRsp 0)
  else if op = 4 then ({ h with nscount := arg }, statusRsp 0)
  else if op = 5 then ({ h with arcount := arg }, statusRsp 0)
  else if op = 6 then (h, { status := 0, encBytes := encBits h, decHdr := ⟨0, 0, 0, 0, 0, 0, 0, 0, 0, 0⟩ })
  else if op = 7 then
    if arg = 12 then (h, { status := 0, encBytes := 0, decHdr := cutBits c.din }) else (h, statusRsp 2)
  else (h, statusRsp 3)

end Sys2Proof.Machine
end

