-- ==== Sys2Proof/Safety.lean ====
section
/-! DEFINITION. What claims are stated in: reachable header values, the form of a response, what each command writes, which
setters conflict, the composition of commands, and a whole run as the rules describe it. -/

namespace Sys2Proof.Machine

/-- The header values that commands can reach from reset (`10_state.md` R22). -/
def ReachableHdr (h : Hdr) : Prop :=
  h.ancount = 0 ∧ h.z = 0 ∧ h.rcode = 0 ∧ (h.flags = 0 ∨ h.flags = 2) ∧ h.opcode = h.qr.setWidth 4

/-- The form of every response: an error carries no data, at most one kind of data is meaningful (`30_encoding.md` R52, R53;
`60_exceptions.md` R83), and encoded bytes have flags-word bits 14 to 12 clear (`42_dns_header_encoder.md` R69 d). -/
def RspForm (r : Rsp) : Prop :=
  (r.status ≠ 0 → r.encBytes = 0 ∧ r.decHdr = zeroHdr) ∧
  (r.encBytes = 0 ∨ r.decHdr = zeroHdr) ∧
  r.encBytes.extractLsb' 76 3 = 0

/-- The value v for the field g, and nothing for another field. -/
def only (g : Field) (v : BitVec g.width) (f : Field) : Option (BitVec f.width) :=
  if h : g = f then some (h ▸ v) else none

/-- What SETQM with isQuery = 1 writes into each field (`41_header_setters.md` R61). -/
def queryWrites : (f : Field) → Option (BitVec f.width)
  | .id => none
  | .qr => some 0
  | .opcode => some 0
  | .flags => some 2
  | .z => some 0
  | .rcode => some 0
  | .qdcount => none
  | .ancount => none
  | .nscount => some 0
  | .arcount => some 0

/-- What SETQM with isQuery = 0 writes into each field (`41_header_setters.md` R61, R62). -/
def responseWrites : (f : Field) → Option (BitVec f.width)
  | .id => none
  | .qr => some 1
  | .opcode => some 1
  | .flags => none
  | .z => none
  | .rcode => none
  | .qdcount => none
  | .ancount => none
  | .nscount => none
  | .arcount => none

/-- What each command writes into each field, given the provider's answer; nothing where the field keeps its value (the table
of `10_state.md` R21 without its reset entries). -/
def writtenValue (i : Instr) (d : Draw) (f : Field) : Option (BitVec f.width) :=
  match i with
  | .new => some 0
  | .setid =>
    match d with
    | .success b0 b1 => only .id (b0 ++ b1) f
    | .failure => none
  | .setqm q => if q then queryWrites f else responseWrites f
  | .setqd n => only .qdcount n f
  | .setns n => only .nscount n f
  | .setar n => only .arcount n f
  | .enc | .dec _ _ => none
  | .reserved8 | .reserved9 | .reservedA | .reservedB => none
  | .reservedC | .reservedD | .reservedE | .reservedF => none

/-- The five setters (`41_header_setters.md` R66). -/
def isSetter : Instr → Bool
  | .new | .setqm _ | .setqd _ | .setns _ | .setar _ => true
  | .setid | .enc | .dec _ _ => false
  | .reserved8 | .reserved9 | .reservedA | .reservedB => false
  | .reservedC | .reservedD | .reservedE | .reservedF => false

/-- The pairs of setters that R66 (b) excepts, in one order. -/
def excepted : Instr → Instr → Bool
  | .new, _ => true
  | .setqm true, .setns _ => true
  | .setqm true, .setar _ => true
  | .setqm q, .setqm q' => q != q'
  | .setqd n, .setqd n' => n != n'
  | .setns n, .setns n' => n != n'
  | .setar n, .setar n' => n != n'
  | _, _ => false

/-- One command and, if it answers a next state, another after it. -/
def andThen (o : Host.Outcome State Fault Refusal) (k : State → Host.Outcome State Fault Refusal) :
    Host.Outcome State Fault Refusal :=
  match o with
  | .next t => k t
  | .fault r => .fault r
  | .refused r => .refused r

/-- Whether a host event is a command. -/
def isCommand : HostEvent → Bool
  | .command _ => true
  | .reset => false

/-- Whether a host event is a SETID command, by its operation number (`30_encoding.md` R47). -/
def isSetid : HostEvent → Bool
  | .command c => c.word.extractLsb' 16 4 == 1
  | .reset => false

/-- The answer the provider gives to the k-th request from this state on, k from 0 (`40_csprng_id_injector.md` R56). -/
def drawAt (s : State) (k : Nat) : Draw :=
  if k < s.draws.length then s.draws.getD k .failure else Config.freeDraw (s.requests + k)

/-- A run as `70_reset_and_hazards.md` R106 describes it: the final `H` and the list of responses of a finite sequence of
events, from a start value of `H` and one answer of the provider per SETID, by the transitions of R14 and the reset event of
R94. -/
def specRun (h : Hdr) (d : Nat → Draw) : List HostEvent → Hdr × List Rsp
  | [] => (h, [])
  | .reset :: es => specRun ⟨0, 0, 0, 0, 0, 0, 0, 0, 0, 0⟩ d es
  | .command c :: es =>
    let next := transact h c (d 0)
    let rest := specRun next.1 (if isSetid (.command c) then fun k => d (k + 1) else d) es
    (rest.1, next.2 :: rest.2)

end Sys2Proof.Machine
end

