-- ==== Sys2Proof/Certificates/Slice0/Obligations.lean ====
section
/-! DEFINITION. The statements for the provers, from the spec's numbered rules. Each docstring names what it formalises. -/

open Sys2Proof Sys2Proof.Machine

/-! ### Reset and the register bank -/

/-- R23: after reset every field of `H` is 0, and NEW writes the same value. -/
def Obligations.ResetHeaderIsAllZero : Prop :=
  (State.reset.hdr.id = 0 ∧ State.reset.hdr.qr = 0 ∧ State.reset.hdr.opcode = 0 ∧ State.reset.hdr.flags = 0 ∧
    State.reset.hdr.z = 0 ∧ State.reset.hdr.rcode = 0 ∧ State.reset.hdr.qdcount = 0 ∧ State.reset.hdr.ancount = 0 ∧
    State.reset.hdr.nscount = 0 ∧ State.reset.hdr.arcount = 0) ∧
  ∀ s : State, exec .new s = .next { s with hdr := State.reset.hdr, rsps := s.rsps ++ [statusRsp 0] }

/-- R94, R95: the reset event zeroes every field of `H`, gives no response, and reaches nothing outside the unit; its effect on
`H` is that of NEW. That it is one step of the machine is the model's choice (log 6). -/
def Obligations.ResetEventZeroesHeader : Prop :=
  ∀ (s : State) (rest : List HostEvent), ∃ t : State,
    step { s with host := .reset :: rest } = .next t ∧
    (∀ f : Field, readField t.hdr f = 0) ∧
    t.rsps = s.rsps ∧ t.draws = s.draws ∧ t.requests = s.requests ∧ t.host = rest ∧
    exec .new s = .next { s with hdr := t.hdr, rsps := s.rsps ++ [statusRsp 0] }

/-- R24: in the reset state QR, OPCODE, FLAGS and ID are 0, and ENC answers twelve zero bytes. -/
def Obligations.EncodeInResetState : Prop :=
  State.reset.hdr.qr = 0 ∧ State.reset.hdr.opcode = 0 ∧ State.reset.hdr.flags = 0 ∧ State.reset.hdr.id = 0 ∧
  encHdr State.reset.hdr = List.replicate 12 0 ∧
  ∀ s : State, exec .enc { s with hdr := State.reset.hdr } =
    .next { s with hdr := State.reset.hdr, rsps := s.rsps ++ [{ status := 0, encBytes := 0, decHdr := zeroHdr }] }

/-- R16: the ten registers, their indexes and widths; a write is read back (none is hardwired) and changes no other register
(none aliases another). -/
def Obligations.RegisterBankLaws : Prop :=
  (List.range 10).map (fun i => (Field.ofIndex i).map Field.width) =
    [some 16, some 1, some 4, some 4, some 3, some 4, some 16, some 16, some 16, some 16] ∧
  (List.range 10).map Field.ofIndex =
    [some .id, some .qr, some .opcode, some .flags, some .z, some .rcode, some .qdcount, some .ancount, some .nscount,
      some .arcount] ∧
  (∀ (h : Hdr) (f : Field) (v : BitVec f.width), readField (writeField h f v) f = v) ∧
  (∀ (h : Hdr) (f g : Field) (v : BitVec f.width), g ≠ f → readField (writeField h f v) g = readField h g)

/-- The bits of the flags nibble (10_state.md section 1, after R17): AA, TC, RD, RA from bit 3 down, at flags-word bits 10, 9,
8 and 7; the value 2 is RD alone. -/
def Obligations.FlagsNibbleBits : Prop :=
  (∀ h : Hdr, aa h.flags = (fw h).getLsbD 10 ∧ tc h.flags = (fw h).getLsbD 9 ∧ rd h.flags = (fw h).getLsbD 8 ∧
    ra h.flags = (fw h).getLsbD 7) ∧
  (∀ v : BitVec 4, v = BitVec.ofBool (aa v) ++ BitVec.ofBool (tc v) ++ BitVec.ofBool (rd v) ++ BitVec.ofBool (ra v)) ∧
  (rd 2 = true ∧ aa 2 = false ∧ tc 2 = false ∧ ra 2 = false)

/-! ### The command word -/

/-- R46, R47 (and the operands of R48): `op` alone selects the command, for every `arg` and every data bus; the operand of format B is
`arg[0]`, of W and L all of `arg`, and DEC is presented the first min(len, 12) bytes of the bus, byte k at `95-8k` to `88-8k`.
Every word is such a pair of fields, so no word is left out. -/
def Obligations.DecodeByOperationNumber : Prop :=
  (∀ w : CmdWord, w = w.extractLsb' 16 4 ++ w.extractLsb' 0 16) ∧
  ∀ (arg : Word) (din : Bus),
    decode ⟨0x0#4 ++ arg, din⟩ = .new ∧
    decode ⟨0x1#4 ++ arg, din⟩ = .setid ∧
    decode ⟨0x2#4 ++ arg, din⟩ = .setqm (arg.getLsbD 0) ∧
    decode ⟨0x3#4 ++ arg, din⟩ = .setqd arg ∧
    decode ⟨0x4#4 ++ arg, din⟩ = .setns arg ∧
    decode ⟨0x5#4 ++ arg, din⟩ = .setar arg ∧
    decode ⟨0x6#4 ++ arg, din⟩ = .enc ∧
    (∃ bytes : List Byte, decode ⟨0x7#4 ++ arg, din⟩ = .dec arg bytes ∧ bytes.length = min arg.toNat 12 ∧
      ∀ k : Nat, k < min arg.toNat 12 → bytes[k]? = some (din.extractLsb' (88 - 8 * k) 8)) ∧
    decode ⟨0x8#4 ++ arg, din⟩ = .reserved8 ∧
    decode ⟨0x9#4 ++ arg, din⟩ = .reserved9 ∧
    decode ⟨0xA#4 ++ arg, din⟩ = .reservedA ∧
    decode ⟨0xB#4 ++ arg, din⟩ = .reservedB ∧
    decode ⟨0xC#4 ++ arg, din⟩ = .reservedC ∧
    decode ⟨0xD#4 ++ arg, din⟩ = .reservedD ∧
    decode ⟨0xE#4 ++ arg, din⟩ = .reservedE ∧
    decode ⟨0xF#4 ++ arg, din⟩ = .reservedF

/-- R54: the words the assembler's table writes out decode to the commands they stand for. A sanity statement. -/
def Obligations.AssemblerWordsDecode : Prop :=
  decode ⟨0x00000, 0⟩ = .new ∧ decode ⟨0x10000, 0⟩ = .setid ∧ decode ⟨0x20001, 0⟩ = .setqm true ∧
  decode ⟨0x20000, 0⟩ = .setqm false ∧ decode ⟨0x30001, 0⟩ = .setqd 1 ∧ decode ⟨0x40003, 0⟩ = .setns 3 ∧
  decode ⟨0x5FFFF, 0⟩ = .setar 0xFFFF ∧ decode ⟨0x60000, 0⟩ = .enc ∧
  decode ⟨0x7000C, 0x123481800001000200030004⟩ =
    .dec 12 [0x12, 0x34, 0x81, 0x80, 0x00, 0x01, 0x00, 0x02, 0x00, 0x03, 0x00, 0x04] ∧
  decode ⟨0x70002, 0x123481800001000200030004⟩ = .dec 2 [0x12, 0x34] ∧ decode ⟨0x80000, 0⟩ = .reserved8

/-- Decode and encode agree: for every well-formed command, every operand at every value. -/
def Obligations.DecodeOfEncodeIsTheInstruction : Prop :=
  ∀ i : Instr, i.wellFormed = true → decode (encode i) = i

/-- Every command decodes to a well-formed instruction. -/
def Obligations.DecodedInstructionIsWellFormed : Prop :=
  ∀ c : Cmd, (decode c).wellFormed = true

/-- R49: ignored bits. `arg` in format N, `arg[15:1]` in format B, `din` in every command but DEC, and in DEC the bits of `din`
beyond byte min(len, 12) - 1, and all of `din` when len is not 12, change nothing; the assembler writes 0 in the ignored bits
of `arg`. -/
def Obligations.IgnoredBitsChangeNothing : Prop :=
  (∀ (s : State) (rest : List HostEvent) (op : BitVec 4) (arg arg' : Word) (din din' : Bus),
    op = 0 ∨ op = 1 ∨ op = 6 ∨ (op = 2 ∧ arg.getLsbD 0 = arg'.getLsbD 0) ∨ (arg = arg' ∧ op ≠ 7) →
      step { s with host := .command ⟨op ++ arg, din⟩ :: rest } = step { s with host := .command ⟨op ++ arg', din'⟩ :: rest }) ∧
  (∀ (s : State) (rest : List HostEvent) (len : Word) (din din' : Bus),
    (∀ k : Nat, k < min len.toNat 12 → busByte din k = busByte din' k) →
      step { s with host := .command ⟨7#4 ++ len, din⟩ :: rest } = step { s with host := .command ⟨7#4 ++ len, din'⟩ :: rest }) ∧
  (∀ (s : State) (rest : List HostEvent) (len : Word) (din din' : Bus), len ≠ 12 →
      step { s with host := .command ⟨7#4 ++ len, din⟩ :: rest } = step { s with host := .command ⟨7#4 ++ len, din'⟩ :: rest }) ∧
  ((encode .new).word.extractLsb' 0 16 = 0 ∧ (encode .setid).word.extractLsb' 0 16 = 0 ∧
    (encode .enc).word.extractLsb' 0 16 = 0 ∧ ∀ q : Bool, (encode (.setqm q)).word.extractLsb' 1 15 = 0)

/-- A step runs the decoded command with the event taken from the host's list; with no event it changes nothing (the model's
reading of R93, log 4). -/
def Obligations.StepRunsTheDecodedCommand : Prop :=
  (∀ (s : State) (c : Cmd) (rest : List HostEvent),
    step { s with host := .command c :: rest } = exec (decode c) { s with host := rest }) ∧
  (∀ s : State, step { s with host := [] } = .next { s with host := [] })

/-! ### The flags word -/

/-- R39: the packing function, by concatenation and by shifts; bits 14 to 12 are 0 for every header. -/
def Obligations.FlagsWordPacking : Prop :=
  ∀ h : Hdr,
    fw h = h.qr ++ 0b000#3 ++ (if h.opcode ≠ 0 then 1#1 else 0#1) ++ h.flags ++ h.z ++ h.rcode ∧
    fw h = (h.qr.setWidth 16 <<< 15) ||| ((if h.opcode ≠ 0 then 1#16 else 0#16) <<< 11) ||| (h.flags.setWidth 16 <<< 7) |||
      (h.z.setWidth 16 <<< 4) ||| h.rcode.setWidth 16 ∧
    (fw h).extractLsb' 12 3 = 0

/-- R40: the image of `FW` is the 2^13 words with bits 14 to 12 clear; `FW` sees of OPCODE only whether it is 0; it is
injective in the five packed fields where OPCODE is 0 or 1 and not beyond; the source's value 0x0100. -/
def Obligations.FlagsWordImageAndInjectivity : Prop :=
  (∀ h : Hdr, (fw h).extractLsb' 12 3 = 0 ∧ fw h &&& 0x7000 = 0) ∧
  (∃ g : BitVec 13 → Word, Function.Injective g ∧ ∀ w : Word,
    ((∃ h : Hdr, fw h = w) ↔ w &&& 0x7000 = 0) ∧ (w &&& 0x7000 = 0 ↔ ∃ x : BitVec 13, g x = w)) ∧
  (∀ (h : Hdr) (o o' : BitVec 4), o ≠ 0 → o' ≠ 0 → fw { h with opcode := o } = fw { h with opcode := o' } ∧
    (fw { h with opcode := o }).getLsbD 11 = true) ∧
  (∀ h h' : Hdr, (h.opcode = 0 ∨ h.opcode = 1) → (h'.opcode = 0 ∨ h'.opcode = 1) → fw h = fw h' →
    h.qr = h'.qr ∧ h.opcode = h'.opcode ∧ h.flags = h'.flags ∧ h.z = h'.z ∧ h.rcode = h'.rcode) ∧
  (∃ h h' : Hdr, h.opcode ≠ h'.opcode ∧ fw h = fw h') ∧
  (∀ h : Hdr, h.qr = 0 → h.opcode = 0 → h.flags = 2 → h.z = 0 → h.rcode = 0 → fw h = 0x0100)

/-- R41: the unpacking function bit by bit, in both modes; the modes agree on the words Encode can produce and on no other. -/
def Obligations.FlagsWordUnpacking : Prop :=
  (∀ (mode : OpcodeMode) (w : Word), (unfw mode w).qr = w.extractLsb' 15 1 ∧ (unfw mode w).flags = w.extractLsb' 7 4 ∧
    (unfw mode w).z = w.extractLsb' 4 3 ∧ (unfw mode w).rcode = w.extractLsb' 0 4) ∧
  (∀ w : Word, (unfw .field4 w).opcode = w.extractLsb' 11 4 ∧ (unfw .bit11 w).opcode = (w.extractLsb' 11 1).setWidth 4) ∧
  (∀ w : Word, unfw .field4 w = unfw .bit11 w ↔ w.extractLsb' 12 3 = 0) ∧
  (∀ h : Hdr, unfw .field4 (fw h) = unfw .bit11 (fw h)) ∧
  Config.decOpcodeMode = .field4

/-- R42: unpacking after packing, and packing after unpacking, in both modes. -/
def Obligations.FlagsWordRoundTrips : Prop :=
  (∀ (mode : OpcodeMode) (h : Hdr), unfw mode (fw h) =
    { qr := h.qr, opcode := if h.opcode ≠ 0 then 1 else 0, flags := h.flags, z := h.z, rcode := h.rcode }) ∧
  (∀ (mode : OpcodeMode) (h : Hdr) (w : Word),
    let u := unfw mode w
    let again := fw { h with qr := u.qr, opcode := u.opcode, flags := u.flags, z := u.z, rcode := u.rcode }
    (mode = .field4 → again = (w &&& 0x87FF#16) ||| ((if w.extractLsb' 11 4 ≠ 0 then 1#16 else 0#16) <<< 11)) ∧
    (mode = .bit11 → again = w &&& 0x8FFF#16) ∧
    (again = w ↔ w.extractLsb' 12 3 = 0))

/-! ### The encoder -/

/-- R67: `Enc` byte by byte, as six MemWrites that leave no byte of `W` unwritten, and as one 96-bit value. -/
def Obligations.EncoderThreeForms : Prop :=
  ∀ h : Hdr,
    encHdr h = [h.id.extractLsb' 8 8, h.id.extractLsb' 0 8, (fw h).extractLsb' 8 8, (fw h).extractLsb' 0 8,
      h.qdcount.extractLsb' 8 8, h.qdcount.extractLsb' 0 8, h.ancount.extractLsb' 8 8, h.ancount.extractLsb' 0 8,
      h.nscount.extractLsb' 8 8, h.nscount.extractLsb' 0 8, h.arcount.extractLsb' 8 8, h.arcount.extractLsb' 0 8] ∧
    encByMemWrite h = some ((encHdr h).map some) ∧
    busOfBytes (encHdr h) = h.id ++ fw h ++ h.qdcount ++ h.ancount ++ h.nscount ++ h.arcount

/-- R69: the properties of `Enc`. -/
def Obligations.EncoderProperties : Prop :=
  (∀ h : Hdr, (encHdr h).length = 12) ∧
  (∀ s s' : State, s.hdr = s'.hdr → ∃ r : Rsp, exec .enc s = .next { s with rsps := s.rsps ++ [r] } ∧
    exec .enc s' = .next { s' with rsps := s'.rsps ++ [r] }) ∧
  (∀ h : Hdr, ∃ w2 w3 : Byte, encHdr h =
    [h.id.extractLsb' 8 8, h.id.extractLsb' 0 8, w2, w3,
      h.qdcount.extractLsb' 8 8, h.qdcount.extractLsb' 0 8, h.ancount.extractLsb' 8 8, h.ancount.extractLsb' 0 8,
      h.nscount.extractLsb' 8 8, h.nscount.extractLsb' 0 8, h.arcount.extractLsb' 8 8, h.arcount.extractLsb' 0 8] ∧
    w2.extractLsb' 4 3 = 0) ∧
  (∀ (h : Hdr) (o o' : BitVec 4), o ≠ 0 → o' ≠ 0 → encHdr { h with opcode := o } = encHdr { h with opcode := o' }) ∧
  (∀ h h' : Hdr, (h.opcode = 0 ∨ h.opcode = 1) → (h'.opcode = 0 ∨ h'.opcode = 1) → encHdr h = encHdr h' → h = h')

/-- R70: the Opcode quirk: Opcode 0 gives flags-word bits 14 to 11 the value 0b0000, every other Opcode 0b0001. -/
def Obligations.OpcodeQuirk : Prop :=
  ∀ h : Hdr, (h.opcode = 0 → (fw h).extractLsb' 11 4 = 0b0000) ∧ (h.opcode ≠ 0 → (fw h).extractLsb' 11 4 = 0b0001)

/-- R68, R71: ENC answers `Enc(H)` for every `H` and every history, writes nothing, and is not gated by the ID; the source's
example. -/
def Obligations.EncResult : Prop :=
  (∀ s : State, exec .enc s = .next { s with rsps := s.rsps ++
    [⟨0, s.hdr.id ++ fw s.hdr ++ s.hdr.qdcount ++ s.hdr.ancount ++ s.hdr.nscount ++ s.hdr.arcount, zeroHdr⟩] }) ∧
  (∀ (arg : Word) (din : Bus), decode ⟨0x6#4 ++ arg, din⟩ = .enc) ∧
  (∀ s : State, andThen (exec (.setqm true) { s with hdr := State.reset.hdr }) (exec .enc) =
    .next { s with
      hdr := { State.reset.hdr with flags := 2 }
      rsps := s.rsps ++ [statusRsp 0, { status := 0, encBytes := 0x000001000000000000000000, decHdr := zeroHdr }] })

/-- R101: ENC does not consume the header: a second ENC answers the same bytes, and `H` is as it was. -/
def Obligations.EncDoesNotConsumeTheHeader : Prop :=
  ∀ s : State, ∃ r : Rsp, exec .enc s = .next { s with rsps := s.rsps ++ [r] } ∧
    andThen (exec .enc s) (exec .enc) = .next { s with rsps := s.rsps ++ [r, r] }

/-! ### The setters -/

/-- R60: NEW, with any `arg`, zeroes every field of `H` and responds status 0, data 0. -/
def Obligations.NewResult : Prop :=
  (∀ (arg : Word) (din : Bus), decode ⟨0x0#4 ++ arg, din⟩ = .new) ∧
  (∀ s : State, exec .new s = .next { s with
    hdr := { id := 0, qr := 0, opcode := 0, flags := 0, z := 0, rcode := 0, qdcount := 0, ancount := 0, nscount := 0,
             arcount := 0 }
    rsps := s.rsps ++ [statusRsp 0] }) ∧
  (∀ s : State, andThen (exec .new s) (exec .enc) = .next { s with
    hdr := State.reset.hdr
    rsps := s.rsps ++ [statusRsp 0, { status := 0, encBytes := 0, decHdr := zeroHdr }] })

/-- R61, R62: SETQM in both framings: exactly the fields it writes, with their values; everything else is kept. The flags
words of R61's example. -/
def Obligations.SetqmResult : Prop :=
  (∀ (arg : Word) (din : Bus), decode ⟨0x2#4 ++ arg, din⟩ = .setqm (arg.getLsbD 0)) ∧
  (∀ s : State, exec (.setqm true) s = .next { s with
    hdr := { s.hdr with qr := 0, opcode := 0, flags := 2, z := 0, rcode := 0, nscount := 0, arcount := 0 }
    rsps := s.rsps ++ [statusRsp 0] }) ∧
  (∀ s : State, exec (.setqm false) s = .next { s with
    hdr := { s.hdr with qr := 1, opcode := 1 }
    rsps := s.rsps ++ [statusRsp 0] }) ∧
  (∀ h : Hdr, fw (setQueryMode Config.respModePolicy true h) = 0x0100) ∧
  (∀ h : Hdr, fw (setQueryMode Config.respModePolicy false (setQueryMode Config.respModePolicy true h)) = 0x8900)

/-- R62: under the policy CLEAR, which this hardware does not take, response framing also zeroes FLAGS, Z and RCODE, and R61's
example ends with 0x8800; under HOLD they are kept. Query framing does not depend on the policy. -/
def Obligations.ResponseModePolicies : Prop :=
  (∀ h : Hdr, setQueryMode .hold false h = { h with qr := 1, opcode := 1 }) ∧
  (∀ h : Hdr, setQueryMode .clear false h = { h with qr := 1, opcode := 1, flags := 0, z := 0, rcode := 0 }) ∧
  (∀ (policy : RespModePolicy) (h : Hdr), setQueryMode policy true h =
    { h with qr := 0, opcode := 0, flags := 2, z := 0, rcode := 0, nscount := 0, arcount := 0 }) ∧
  (∀ h : Hdr, fw (setQueryMode .hold false (setQueryMode .hold true h)) = 0x8900) ∧
  (∀ h : Hdr, fw (setQueryMode .clear false (setQueryMode .clear true h)) = 0x8800) ∧
  Config.respModePolicy = .hold

/-- R102: `SETQM 0` inherits the flags nibble, Z and RCODE: 0x8800 after NEW, 0x8900 after an earlier `SETQM 1`, from every
state. -/
def Obligations.ResponseFramingInherits : Prop :=
  ∀ s : State,
    (∃ t : State, andThen (exec .new s) (exec (.setqm false)) = .next t ∧ fw t.hdr = 0x8800) ∧
    (∃ t : State, andThen (exec (.setqm true) s) (exec (.setqm false)) = .next t ∧ fw t.hdr = 0x8900) ∧
    (∃ t : State, exec (.setqm false) s = .next t ∧ t.hdr.flags = s.hdr.flags ∧ t.hdr.z = s.hdr.z ∧
      t.hdr.rcode = s.hdr.rcode)

/-- R63: SETQD writes QDCOUNT and nothing else, for every operand; SETQM in either mode keeps it. -/
def Obligations.SetqdResult : Prop :=
  (∀ (n : Word) (din : Bus), decode ⟨0x3#4 ++ n, din⟩ = .setqd n) ∧
  (∀ (n : Word) (s : State), exec (.setqd n) s = .next { s with
    hdr := { s.hdr with qdcount := n }
    rsps := s.rsps ++ [statusRsp 0] }) ∧
  (∀ (n : Word) (q : Bool) (s : State), ∃ t : State,
    andThen (exec (.setqd n) s) (exec (.setqm q)) = .next t ∧ t.hdr.qdcount = n ∧
    ∃ t' : State, andThen (exec (.setqm q) s) (exec (.setqd n)) = .next t' ∧ t'.hdr = t.hdr) ∧
  (∀ h : Hdr, ∃ b : List Byte, encHdr { h with qdcount := 1 } = b ∧ b[4]? = some 0x00 ∧ b[5]? = some 0x01)

/-- R64, R65: SETNS and SETAR write NSCOUNT and ARCOUNT and nothing else, for every operand; a later `SETQM 1` clears the
count, a later `SETQM 0` does not. -/
def Obligations.SetnsAndSetarResult : Prop :=
  (∀ (n : Word) (din : Bus), decode ⟨0x4#4 ++ n, din⟩ = .setns n ∧ decode ⟨0x5#4 ++ n, din⟩ = .setar n) ∧
  (∀ (n : Word) (s : State), exec (.setns n) s = .next { s with
    hdr := { s.hdr with nscount := n }
    rsps := s.rsps ++ [statusRsp 0] }) ∧
  (∀ (n : Word) (s : State), exec (.setar n) s = .next { s with
    hdr := { s.hdr with arcount := n }
    rsps := s.rsps ++ [statusRsp 0] }) ∧
  (∀ (n : Word) (q : Bool) (s : State), ∃ t t' : State,
    andThen (exec (.setns n) s) (exec (.setqm q)) = .next t ∧ t.hdr.nscount = (if q then 0 else n) ∧
    andThen (exec (.setar n) s) (exec (.setqm q)) = .next t' ∧ t'.hdr.arcount = (if q then 0 else n)) ∧
  (∀ h : Hdr, ∃ b : List Byte, encHdr { h with nscount := 3, arcount := 0xFFFF } = b ∧ b[8]? = some 0x00 ∧
    b[9]? = some 0x03 ∧ b[10]? = some 0xFF ∧ b[11]? = some 0xFF)

/-- R66: each setter is idempotent on `H`; two setters commute unless the pair is excepted; none can fail and none consults
the provider; there is no setter for ANCOUNT but NEW, which zeroes it. -/
def Obligations.SetterLaws : Prop :=
  (∀ (i : Instr) (s : State), isSetter i = true → ∃ t t' : State,
    exec i s = .next t ∧ exec i t = .next t' ∧ t'.hdr = t.hdr ∧
    t.rsps = s.rsps ++ [statusRsp 0] ∧ t.draws = s.draws ∧ t.requests = s.requests) ∧
  (∀ (i j : Instr) (s : State), isSetter i = true → isSetter j = true → excepted i j = false → excepted j i = false →
    andThen (exec i s) (exec j) = andThen (exec j s) (exec i)) ∧
  (∀ (i : Instr) (s t : State), isSetter i = true → exec i s = .next t →
    t.hdr.ancount = s.hdr.ancount ∨ (i = .new ∧ t.hdr.ancount = 0))

/-- R98: `SETQM 1` destroys the authority and additional counts set before it, whatever they were; `SETQM 0` does not, and
QDCOUNT is safe from both. -/
def Obligations.QueryFramingDestroysCounts : Prop :=
  ∀ (n m k : Word) (q : Bool) (s : State), ∃ t : State,
    andThen (andThen (andThen (exec (.setns n) s) (exec (.setar m))) (exec (.setqd k))) (exec (.setqm q)) = .next t ∧
    t.hdr.nscount = (if q then 0 else n) ∧ t.hdr.arcount = (if q then 0 else m) ∧ t.hdr.qdcount = k

/-! ### The ID injector -/

/-- R55: SETID, with any `arg`: one request to the provider; on success `H.ID` is the two bytes, `buffer[0]` high, no other
field changes, and the response is status 0, data 0; on failure EntropyFailure is raised: `H` unchanged, status 1, data 0. -/
def Obligations.SetidResult : Prop :=
  (∀ (arg : Word) (din : Bus), decode ⟨0x1#4 ++ arg, din⟩ = .setid) ∧
  (∀ (s : State) (b0 b1 : Byte), nextDraw s = .success b0 b1 →
    exec .setid s = .next { s with
      hdr := { s.hdr with id := b0 ++ b1 }
      draws := s.draws.tail
      requests := s.requests + 1
      rsps := s.rsps ++ [statusRsp 0] }) ∧
  (∀ s : State, nextDraw s = .failure →
    exec .setid s = .next { s with
      draws := s.draws.tail
      requests := s.requests + 1
      rsps := s.rsps ++ [statusRsp 1] })

/-- R57: EntropyFailure: no field of `H` is written, the ID keeps its value, and the response has status 1 and zero data; the
failure is not sticky: the next SETID makes a request of its own and may succeed. -/
def Obligations.SetidFailure : Prop :=
  (∀ s : State, nextDraw s = .failure → ∃ t : State, exec .setid s = .next t ∧ t.hdr = s.hdr ∧
    t.rsps = s.rsps ++ [statusRsp 1] ∧ t.requests = s.requests + 1) ∧
  (∀ (s : State) (b0 b1 : Byte) (ds : List Draw), s.draws = .failure :: .success b0 b1 :: ds →
    andThen (exec .setid s) (exec .setid) = .next { s with
      hdr := { s.hdr with id := b0 ++ b1 }
      draws := ds
      requests := s.requests + 2
      rsps := s.rsps ++ [statusRsp 1, statusRsp 0] })

/-- R56: one SETID makes exactly one request and takes exactly one answer, the next one the state fixes or else the free value
of this request; no other command makes a request. -/
def Obligations.OneRequestPerSetid : Prop :=
  (∀ (s : State) (d : Draw) (ds : List Draw), nextDraw { s with draws := d :: ds } = d) ∧
  (∀ s : State, nextDraw { s with draws := [] } = Config.freeDraw s.requests) ∧
  (∀ s : State, ∃ t : State, exec .setid s = .next t ∧ t.requests = s.requests + 1 ∧ t.draws = s.draws.tail) ∧
  (∀ (i : Instr) (s t : State), i ≠ .setid → exec i s = .next t → t.requests = s.requests ∧ t.draws = s.draws)

/-- R58: every 16-bit value, 0 and the old ID included, is accepted as the new ID when the provider draws it. -/
def Obligations.EveryDrawnIdIsAccepted : Prop :=
  ∀ (s : State) (v : Word) (ds : List Draw),
    exec .setid { s with draws := .success (v.extractLsb' 8 8) (v.extractLsb' 0 8) :: ds } = .next { s with
      hdr := { s.hdr with id := v }
      draws := ds
      requests := s.requests + 1
      rsps := s.rsps ++ [statusRsp 0] }

/-- R59: SETID reads no field of `H` and writes only ID: with any other header in place it answers the same response and the
same ID (on success) and keeps the other nine fields; it commutes with SETQM and the count setters on `H`. -/
def Obligations.SetidIsIndependentOfTheHeader : Prop :=
  (∀ (s : State) (h : Hdr), ∃ t t' : State, exec .setid s = .next t ∧ exec .setid { s with hdr := h } = .next t' ∧
    t'.rsps = t.rsps ∧ t'.hdr = { h with id := t'.hdr.id } ∧ t.hdr = { s.hdr with id := t.hdr.id } ∧
    (nextDraw s ≠ .failure → t'.hdr.id = t.hdr.id)) ∧
  (∀ (i : Instr) (s : State), isSetter i = true → i ≠ .new → ∃ t t' : State,
    andThen (exec .setid s) (exec i) = .next t ∧ andThen (exec i s) (exec .setid) = .next t' ∧
    t'.hdr = t.hdr ∧ t'.draws = t.draws ∧ t'.requests = t.requests)

/-! ### The decoder -/

/-- R72: `Dec` on every finite byte sequence, in every setting of its two parameters: FormatError unless the length is 12; on
twelve bytes, FormatError exactly when the strict-Z option is on and the Z bits are nonzero, else the header of the six
big-endian words; with this hardware's parameters the 96 bits of the buffer cut into the ten fields in order. -/
def Obligations.DecoderResult : Prop :=
  (∀ (mode : OpcodeMode) (strictZ : Bool) (b : List Byte), b.length ≠ 12 → decBytes mode strictZ b = .formatError) ∧
  (∀ (mode : OpcodeMode) (strictZ : Bool) (b0 b1 b2 b3 b4 b5 b6 b7 b8 b9 b10 b11 : Byte),
    let u := unfw mode (b2 ++ b3)
    decBytes mode strictZ [b0, b1, b2, b3, b4, b5, b6, b7, b8, b9, b10, b11] =
      if strictZ = true ∧ u.z ≠ 0 then .formatError
      else .header { id := b0 ++ b1, qr := u.qr, opcode := u.opcode, flags := u.flags, z := u.z, rcode := u.rcode,
                     qdcount := b4 ++ b5, ancount := b6 ++ b7, nscount := b8 ++ b9, arcount := b10 ++ b11 }) ∧
  (∀ b : List Byte, b.length = 12 → ∃ h : Hdr, decBytes Config.decOpcodeMode Config.strictZ b = .header h ∧
    h.id ++ h.qr ++ h.opcode ++ h.flags ++ h.z ++ h.rcode ++ h.qdcount ++ h.ancount ++ h.nscount ++ h.arcount = busOfBytes b)

/-- R75: `Dec` never reads out of bounds; a buffer whose length is not 12 is refused whatever its bytes are. -/
def Obligations.DecoderNeverReadsOutOfBounds : Prop :=
  (∀ (mode : OpcodeMode) (strictZ : Bool) (b : List Byte), decBytes mode strictZ b ≠ .outOfBounds) ∧
  (∀ (mode : OpcodeMode) (strictZ : Bool) (len : Nat) (b b' : List Byte), len ≠ 12 →
    decBuffer mode strictZ len b = .formatError ∧ decBuffer mode strictZ len b' = .formatError) ∧
  (∀ (mode : OpcodeMode) (b b' : List Byte), b.length = 12 → decBytes mode false b = decBytes mode false (b ++ b') → b' = [])

/-- R76: the strict-Z option: off, as on this hardware, a nonzero Z comes back as found; on, the encoding of a header decodes
exactly when its Z is 0. -/
def Obligations.StrictZOption : Prop :=
  Config.strictZ = false ∧
  (∀ (mode : OpcodeMode) (b : List Byte), b.length = 12 → ∃ h : Hdr, decBytes mode false b = .header h ∧
    h.z = (busOfBytes b).extractLsb' 68 3) ∧
  (∀ (mode : OpcodeMode) (h : Hdr), ∃ h' : Hdr, decBytes mode false (encHdr h) = .header h' ∧ h'.z = h.z) ∧
  (∀ (mode : OpcodeMode) (h : Hdr), decBytes mode true (encHdr h) = .formatError ↔ h.z ≠ 0) ∧
  (∀ (mode : OpcodeMode) (b : List Byte), b.length ≠ 12 → decBytes mode true b = .formatError)

/-- R77: the two Opcode modes agree on every buffer `Enc` can produce, and disagree exactly on twelve-byte buffers whose
flags-word bits 14 to 12 are not all 0. -/
def Obligations.OpcodeModesDisagreeExactly : Prop :=
  Config.decOpcodeMode = .field4 ∧
  (∀ h : Hdr, decBytes .field4 false (encHdr h) = decBytes .bit11 false (encHdr h)) ∧
  (∀ b : List Byte, b.length = 12 →
    (decBytes .field4 false b = decBytes .bit11 false b ↔ (busOfBytes b).extractLsb' 76 3 = 0)) ∧
  (∀ b : List Byte, b.length = 12 → ∃ h4 h1 : Hdr,
    decBytes .field4 false b = .header h4 ∧ h4.opcode = (busOfBytes b).extractLsb' 75 4 ∧
    decBytes .bit11 false b = .header h1 ∧ h1.opcode = ((busOfBytes b).extractLsb' 75 1).setWidth 4)

/-- R73, R74: DEC on every well-formed term: with len = 12 it answers the header whose 96 bits are the bytes, status 0; with
any other len it raises FormatError, status 2, data 0; `H` is neither read nor written. R73's example. -/
def Obligations.DecResultAndPurity : Prop :=
  (∀ (len : Word) (din : Bus), ∃ bytes : List Byte, decode ⟨0x7#4 ++ len, din⟩ = .dec len bytes ∧
    bytes.length = min len.toNat 12) ∧
  (∀ (s : State) (bytes : List Byte), bytes.length = 12 → exec (.dec 12 bytes) s = .next { s with
    rsps := s.rsps ++ [{ status := 0, encBytes := 0, decHdr := cutBits (busOfBytes bytes) }] }) ∧
  (∀ (s : State) (len : Word) (bytes : List Byte), len ≠ 12 →
    exec (.dec len bytes) s = .next { s with rsps := s.rsps ++ [statusRsp 2] }) ∧
  (∀ s : State, exec (decode ⟨0x7000C, 0x123481800001000200030004⟩) s = .next { s with
    rsps := s.rsps ++
      [⟨0, 0, { id := 0x1234, qr := 1, opcode := 0, flags := 3, z := 0, rcode := 0, qdcount := 1, ancount := 2, nscount := 3, arcount := 4 }⟩] })

/-- The hardware round trip of R74: DEC of the bus that ENC answers gives the fields of `H`, with OPCODE as 0 or 1. -/
def Obligations.EncThenDecReturnsTheHeader : Prop :=
  ∀ s : State, ∃ v : Bus,
    exec .enc s = .next { s with rsps := s.rsps ++ [{ status := 0, encBytes := v, decHdr := zeroHdr }] } ∧
    exec (decode ⟨0x7000C, v⟩) s = .next { s with rsps := s.rsps ++ 
      [⟨0, 0, { s.hdr with opcode := if s.hdr.opcode ≠ 0 then 1 else 0 }⟩] }

/-- R78: decoding an encoded header gives it back with OPCODE reduced to 0 or 1, in both Opcode modes, and the header itself
where OPCODE is 0 or 1; under strict Z exactly for Z = 0. -/
def Obligations.DecodeInvertsEncode : Prop :=
  (∀ (mode : OpcodeMode) (h : Hdr),
    decBytes mode false (encHdr h) = .header { h with opcode := if h.opcode ≠ 0 then 1 else 0 }) ∧
  (∀ (mode : OpcodeMode) (h : Hdr), (h.opcode = 0 ∨ h.opcode = 1) → decBytes mode false (encHdr h) = .header h) ∧
  (∀ (mode : OpcodeMode) (h : Hdr),
    decBytes mode true (encHdr h) = .header { h with opcode := if h.opcode ≠ 0 then 1 else 0 } ↔ h.z = 0)

/-- R79: re-encoding a decoded buffer gives the buffer exactly when flags-word bits 14 to 12 are 0; otherwise only `B[2]`
differs: its bits 6 to 4 become 0 and its bit 3 becomes 1 (FIELD4) or stays (BIT11). -/
def Obligations.EncodeAfterDecode : Prop :=
  ∀ (mode : OpcodeMode) (b0 b1 b2 b3 b4 b5 b6 b7 b8 b9 b10 b11 : Byte), ∃ (h : Hdr) (c2 : Byte),
    decBytes mode false [b0, b1, b2, b3, b4, b5, b6, b7, b8, b9, b10, b11] = .header h ∧
    encHdr h = [b0, b1, c2, b3, b4, b5, b6, b7, b8, b9, b10, b11] ∧
    (encHdr h = [b0, b1, b2, b3, b4, b5, b6, b7, b8, b9, b10, b11] ↔ ((b2 ++ b3 : Word)).extractLsb' 12 3 = 0) ∧
    (((b2 ++ b3 : Word)).extractLsb' 12 3 ≠ 0 →
      c2 ≠ b2 ∧ c2.extractLsb' 7 1 = b2.extractLsb' 7 1 ∧ c2.extractLsb' 4 3 = 0 ∧
      c2.extractLsb' 3 1 = (match mode with | .field4 => 1 | .bit11 => b2.extractLsb' 3 1) ∧
      c2.extractLsb' 0 3 = b2.extractLsb' 0 3)

/-- R80: `Dec` is total; with this hardware's parameters it is a bijection from twelve-byte buffers to headers; under BIT11 it
is neither injective nor surjective. -/
def Obligations.DecoderIsABijection : Prop :=
  (∀ (mode : OpcodeMode) (strictZ : Bool) (b : List Byte),
    decBytes mode strictZ b = .formatError ∨ ∃ h : Hdr, decBytes mode strictZ b = .header h) ∧
  (∀ h : Hdr, ∃! b : List Byte, b.length = 12 ∧ decBytes Config.decOpcodeMode Config.strictZ b = .header h) ∧
  (∀ b : List Byte, b.length = 12 → ∃ h : Hdr, decBytes Config.decOpcodeMode Config.strictZ b = .header h) ∧
  (∃ b b' : List Byte, b ≠ b' ∧ b.length = 12 ∧ b'.length = 12 ∧ decBytes .bit11 false b = decBytes .bit11 false b') ∧
  (∀ h : Hdr, 2 ≤ h.opcode.toNat → ∀ b : List Byte, decBytes .bit11 false b ≠ .header h)

/-! ### The buffers -/

/-- R28, R30: MemRead: its domain, the byte it returns, and the 16-bit read as the two bytes joined, the lower offset most
significant. -/
def Obligations.MemReadIsBigEndian : Prop :=
  (∀ (b : List Byte) (off : Nat), ((memRead1 b.length b off).isSome = true ↔ off + 1 ≤ b.length) ∧
    (off + 1 ≤ b.length → memRead1 b.length b off = b[off]?)) ∧
  (∀ (b : List Byte) (off : Nat), ((memRead2 b.length b off).isSome = true ↔ off + 2 ≤ b.length) ∧
    (off + 2 ≤ b.length → ∃ hi lo : Byte, memRead1 b.length b off = some hi ∧ memRead1 b.length b (off + 1) = some lo ∧
      memRead2 b.length b off = some (hi ++ lo)))

/-- R29: MemWrite: its domain, the bytes it stores, big-endian, and every other byte of `W` kept. -/
def Obligations.MemWriteStoresBigEndian : Prop :=
  ∀ (w : List (Option Byte)) (off : Nat), w.length = 12 →
    (∀ v : Byte, (12 < off + 1 → memWrite1 w off v = none) ∧ (off + 1 ≤ 12 → ∃ w' : List (Option Byte),
      memWrite1 w off v = some w' ∧ w'.length = 12 ∧ w'[off]? = some (some v) ∧
      ∀ k : Nat, k ≠ off → w'[k]? = w[k]?)) ∧
    (∀ v : Word, (12 < off + 2 → memWrite2 w off v = none) ∧ (off + 2 ≤ 12 → ∃ w' : List (Option Byte),
      memWrite2 w off v = some w' ∧ w'.length = 12 ∧ w'[off]? = some (some (v.extractLsb' 8 8)) ∧
      w'[off + 1]? = some (some (v.extractLsb' 0 8)) ∧
      ∀ k : Nat, k ≠ off → k ≠ off + 1 → w'[k]? = w[k]?))

/-- R26: a twelve-byte buffer and its 96-bit value: byte k at bits `95-8k` to `88-8k`, and nothing is lost either way; ENC
answers `W` in that form. -/
def Obligations.BusHoldsTwelveBytes : Prop :=
  (∀ h : Hdr, (encHdr h).length = 12) ∧
  (∀ (b : List Byte) (k : Nat), b.length = 12 → k < 12 → b[k]? = some ((busOfBytes b).extractLsb' (88 - 8 * k) 8)) ∧
  (∀ v : Bus, busOfBytes ((List.range 12).map (fun k => v.extractLsb' (88 - 8 * k) 8)) = v) ∧
  (∀ s : State, ∃ r : Rsp, exec .enc s = .next { s with rsps := s.rsps ++ [r] } ∧
    ∀ k : Nat, k < 12 → (encHdr s.hdr)[k]? = some (r.encBytes.extractLsb' (88 - 8 * k) 8))

/-! ### Errors and responses -/

/-- R50: each reserved operation number, with any `arg` and any data bus, raises IllegalCommand: `H` unchanged, status 3, zero
data; words with `op` 0 to 7 never do. -/
def Obligations.ReservedOpsRaiseIllegalCommand : Prop :=
  (∀ (s : State) (i : Instr), i ∈ [Instr.reserved8, .reserved9, .reservedA, .reservedB, .reservedC, .reservedD, .reservedE,
      .reservedF] → exec i s = .next { s with rsps := s.rsps ++ [statusRsp 3] }) ∧
  (∀ (s : State) (rest : List HostEvent) (c : Cmd), 8 ≤ (c.word.extractLsb' 16 4).toNat →
    step { s with host := .command c :: rest } = .next { s with host := rest, rsps := s.rsps ++ [statusRsp 3] }) ∧
  (∀ (s : State) (rest : List HostEvent) (c : Cmd), (c.word.extractLsb' 16 4).toNat < 8 → ∃ (t : State) (r : Rsp),
    step { s with host := .command c :: rest } = .next t ∧ t.rsps = s.rsps ++ [r] ∧ r.status ≠ 3)

/-- R53, R81: the status of every command: 1 exactly for SETID when the provider fails, 2 exactly for DEC with len ≠ 12, 3
exactly for a reserved `op`, else 0; the encoded bytes of ENC, the decoded header of an accepted DEC, and zero data in every
other response. -/
def Obligations.StatusOfEveryCommand : Prop :=
  ∀ (s : State) (rest : List HostEvent) (c : Cmd), ∃ (t : State) (r : Rsp),
    step { s with host := .command c :: rest } = .next t ∧ t.rsps = s.rsps ++ [r] ∧
    (r.status = 1 ↔ c.word.extractLsb' 16 4 = 1 ∧ nextDraw s = .failure) ∧
    (r.status = 2 ↔ c.word.extractLsb' 16 4 = 7 ∧ c.word.extractLsb' 0 16 ≠ 12) ∧
    (r.status = 3 ↔ 8 ≤ (c.word.extractLsb' 16 4).toNat) ∧
    r.encBytes = (if c.word.extractLsb' 16 4 = 6 then encBits s.hdr else 0) ∧
    r.decHdr = (if c.word.extractLsb' 16 4 = 7 ∧ c.word.extractLsb' 0 16 = 12 then cutBits c.din else zeroHdr)

/-- R82, R83: an error is the response of the command that raised it; that command leaves `H` as it was and its response
carries no data. -/
def Obligations.ErrorsArePreciseAndCarryNoData : Prop :=
  ∀ (s t : State) (rest : List HostEvent) (c : Cmd), step { s with host := .command c :: rest } = .next t →
    ∃ r : Rsp, t.rsps = s.rsps ++ [r] ∧ t.host = rest ∧
      (r.status ≠ 0 → t.hdr = s.hdr ∧ r.encBytes = 0 ∧ r.decHdr = zeroHdr)

/-- R84: no error is sticky. After any error every command does what it would have done without it, a repeated bad DEC fails
again, and a SETID repeated after a failure makes a new request and may succeed. -/
def Obligations.ErrorsAreNotSticky : Prop :=
  (∀ (e : Err) (i : Instr) (s : State), i.wellFormed = true → ∃ (t : State) (r : Rsp),
    exec i s = .next { t with rsps := s.rsps ++ [r] } ∧
    exec i (raise e s) = .next { t with rsps := s.rsps ++ [errRsp e, r] }) ∧
  (∀ (s : State) (len : Word) (bytes : List Byte), len ≠ 12 →
    andThen (exec (.dec len bytes) s) (exec (.dec len bytes)) =
      .next { s with rsps := s.rsps ++ [statusRsp 2, statusRsp 2] }) ∧
  (∀ (s : State) (b0 b1 : Byte) (ds : List Draw),
    andThen (exec .setid { s with draws := .failure :: .success b0 b1 :: ds }) (exec .setid) = .next { s with
      hdr := { s.hdr with id := b0 ++ b1 }
      draws := ds
      requests := s.requests + 2
      rsps := s.rsps ++ [statusRsp 1, statusRsp 0] })

/-! ### The whole machine -/

/-- R21: every command writes exactly the listed fields with the listed values and keeps the others; ENC is the only command
whose response depends on `H`, and it depends on all ten fields. -/
def Obligations.WritersAndReadersOfEveryField : Prop :=
  (∀ (i : Instr) (s t : State) (f : Field), exec i s = .next t →
    readField t.hdr f = (writtenValue i (nextDraw s) f).getD (readField s.hdr f)) ∧
  (∀ (s : State) (f : Field), readField (resetEvent s).hdr f = 0) ∧
  (∀ (i : Instr) (s t t' : State) (h : Hdr), i ≠ .enc → exec i s = .next t → exec i { s with hdr := h } = .next t' →
    t'.rsps = t.rsps) ∧
  (∀ f : Field, ∃ (h : Hdr) (v : BitVec f.width), encHdr (writeField h f v) ≠ encHdr h)

/-- R22: reset leaves a reachable header. -/
def Obligations.ReachableHeaderAtReset : Prop := ReachableHdr State.reset.hdr

/-- R22: every step keeps the header reachable, from every state whose header is. -/
def Obligations.StepKeepsReachableHeader : Prop :=
  ∀ s t : State, ReachableHdr s.hdr → step s = .next t → ReachableHdr t.hdr

/-- R22: the header values reachable from reset by commands are exactly those of `ReachableHdr`: ID, QDCOUNT, NSCOUNT and
ARCOUNT any value. -/
def Obligations.ReachableHeadersExactly : Prop :=
  ∀ h : Hdr, ReachableHdr h ↔ ∃ (host : List HostEvent) (draws : List Draw) (n : Nat) (t : State),
    Host.Core.run Sys2Proof.core n { State.reset with host := host, draws := draws } = .next t ∧ t.hdr = h

/-- R22: the only flags words ENC emits from a reachable header are 0x0000, 0x0100, 0x8800 and 0x8900, and it emits each. -/
def Obligations.ReachableFlagsWords : Prop :=
  ∀ w : Word, (∃ h : Hdr, ReachableHdr h ∧ fw h = w) ↔ (w = 0x0000 ∨ w = 0x0100 ∨ w = 0x8800 ∨ w = 0x8900)

/-- R52, R53, R69 (d): every step keeps the responses in their form (an error without data, at most one kind of data, encoded
bytes with flags-word bits 14 to 12 clear). -/
def Obligations.StepKeepsResponsesInForm : Prop :=
  ∀ s t : State, (∀ r ∈ s.rsps, RspForm r) → step s = .next t → ∀ r ∈ t.rsps, RspForm r

/-- R52, R53: at reset no response is delivered yet, which is the model's choice (log 3), and every response that any run from
reset delivers, on any list of events and any answers of the provider (logs 1, 2), is in its form. -/
def Obligations.ResponsesInFormAtReset : Prop :=
  State.reset.rsps = [] ∧
  ∀ (host : List HostEvent) (draws : List Draw) (n : Nat) (t : State),
    Host.Core.run Sys2Proof.core n { State.reset with host := host, draws := draws } = .next t → ∀ r ∈ t.rsps, RspForm r

/-- R14, R106: the step is total: it never faults and never refuses, from any state. -/
def Obligations.StepAlwaysAnswersANextState : Prop := ∀ s : State, ∃ t : State, step s = .next t

/-- R14: one step on a command is the transition `H x Cmd x Draw -> H x Rsp` read off the bits of the command word and the data
bus; the answer of the provider is taken by SETID alone. -/
def Obligations.StepRefinesTheTransition : Prop :=
  ∀ (s : State) (c : Cmd) (rest : List HostEvent),
    step { s with host := .command c :: rest } = .next
      { hdr := (transact s.hdr c (nextDraw s)).1
        host := rest
        draws := if isSetid (.command c) then s.draws.tail else s.draws
        requests := if isSetid (.command c) then s.requests + 1 else s.requests
        rsps := s.rsps ++ [(transact s.hdr c (nextDraw s)).2] }

/-- R34, R106: a run of any finite list of events, from any state, ends after one step per event with the final `H` and the
list of responses the rules give: the commands take effect one at a time in the order issued, each SETID with an answer of its
own. -/
def Obligations.RunIsTheSpecifiedRun : Prop :=
  ∀ s : State, ∃ t : State,
    Host.Core.run Sys2Proof.core s.host.length s = .next t ∧
    t.host = [] ∧
    t.hdr = (specRun s.hdr (drawAt s) s.host).1 ∧
    t.rsps = s.rsps ++ (specRun s.hdr (drawAt s) s.host).2

/-- R52, R106: however many steps are taken, a run never stops; it has delivered exactly one response per command issued and
made one request per SETID. -/
def Obligations.OneResponsePerCommandAndOneDrawPerSetid : Prop :=
  ∀ (s : State) (n : Nat), ∃ t : State, Host.Core.run Sys2Proof.core n s = .next t ∧
    t.host = s.host.drop n ∧
    t.rsps.length = s.rsps.length + ((s.host.take n).filter isCommand).length ∧
    s.rsps <+: t.rsps ∧
    t.requests = s.requests + ((s.host.take n).filter isSetid).length ∧
    t.draws = s.draws.drop ((s.host.take n).filter isSetid).length
end

