-- ==== Sys2Proof/Laws/Bits.lean ====
section
/-! SUPPORT. The bit-placement lemmas: the two bytes of a word, the two fields of a command word, the bytes of a bus, and the
fields of the flags word. -/

namespace Sys2Proof

@[simp] theorem hiByte_append (a b : Byte) : hiByte (a ++ b) = a := by
  unfold hiByte
  exact BitVec.extractLsb'_append_eq_left

@[simp] theorem loByte_append (a b : Byte) : loByte (a ++ b) = b := by
  unfold loByte
  exact BitVec.extractLsb'_append_eq_right

@[simp] theorem hiByte_append_loByte (w : Word) : (hiByte w ++ loByte w : BitVec 16) = w := by
  unfold hiByte loByte
  apply BitVec.eq_of_getLsbD_eq
  intro i hi
  rw [BitVec.getLsbD_append]
  interval_cases i <;> simp

/-- Two words are equal when their halves are. -/
theorem word_ext {v w : Word} (hh : hiByte v = hiByte w) (hl : loByte v = loByte w) : v = w := by
  rw [← hiByte_append_loByte v, ← hiByte_append_loByte w, hh, hl]

@[simp] theorem opField_append (op : BitVec 4) (arg : Word) : opField (op ++ arg) = op := by
  unfold opField
  exact BitVec.extractLsb'_append_eq_left

@[simp] theorem argField_append (op : BitVec 4) (arg : Word) : argField (op ++ arg) = arg := by
  unfold argField
  exact BitVec.extractLsb'_append_eq_right

@[simp] theorem opField_cmdWord (op : BitVec 4) (arg : Word) : opField (cmdWord op arg) = op := opField_append op arg

@[simp] theorem argField_cmdWord (op : BitVec 4) (arg : Word) : argField (cmdWord op arg) = arg := argField_append op arg

/-- With this hardware's `LEN_W` the length operand is all of `arg`. -/
theorem lenOperand_eq_argField (w : CmdWord) : lenOperand w = argField w := BitVec.setWidth_eq _

@[simp] theorem lenOperand_append (op : BitVec 4) (arg : Word) : lenOperand (op ++ arg) = arg :=
  (lenOperand_eq_argField _).trans (argField_append op arg)

@[simp] theorem lenOperand_cmdWord (op : BitVec 4) (arg : Word) : lenOperand (cmdWord op arg) = arg := lenOperand_append op arg

/-- A presented length is below `2 ^ LEN_W`. -/
theorem lenOperand_lt (w : CmdWord) : (lenOperand w).toNat < 2 ^ Config.lenW := (lenOperand w).isLt

@[simp] theorem boolOperand_append (op : BitVec 4) (arg : Word) : boolOperand (op ++ arg) = arg.getLsbD 0 := by
  simp [boolOperand]

@[simp] theorem getLsbD_boolArg (b : Bool) : (boolArg b).getLsbD 0 = b := by cases b <;> rfl

/-- Byte k of the bus that carries these bytes is byte k. -/
theorem busByte_busOfBytes (bs : List Byte) {k : Nat} (hk : k < 12) : busByte (busOfBytes bs) k = bs.getD k 0 := by
  unfold busByte busOfBytes
  interval_cases k
  all_goals
    repeat rw [BitVec.extractLsb'_append_eq_of_le (by decide)]
    first
    | exact BitVec.extractLsb'_append_eq_right
    | exact BitVec.extractLsb'_eq_self

/-- A bus is the twelve bytes it carries. -/
theorem bus_ext {v w : Bus} (h : ∀ k < 12, busByte v k = busByte w k) : v = w := by
  apply BitVec.eq_of_getLsbD_eq
  intro i hi
  have hb := congrArg (fun b : Byte => b.getLsbD (i % 8)) (h (11 - i / 8) (by omega))
  simp only [busByte, BitVec.getLsbD_extractLsb'] at hb
  have hlt : i % 8 < 8 := Nat.mod_lt _ (by norm_num)
  have hidx : 88 - 8 * (11 - i / 8) + i % 8 = i := by omega
  simpa [hlt, hidx] using hb

@[simp] theorem presentedBytes_length (len : Word) (din : Bus) :
    (presentedBytes len din).length = min len.toNat 12 := by
  simp [presentedBytes, Config.hdrBytes]

/-- Byte k of the presented bytes is byte k of the bus. -/
theorem presentedBytes_getElem? (len : Word) (din : Bus) {k : Nat} (hk : k < min len.toNat 12) :
    (presentedBytes len din)[k]? = some (busByte din k) := by
  simp only [presentedBytes, Config.hdrBytes, List.getElem?_map, List.getElem?_range hk, Option.map_some]

/-- The presented bytes depend on the presented part of the bus alone. -/
theorem presentedBytes_congr {len : Word} {din din' : Bus}
    (h : ∀ k < min len.toNat 12, busByte din k = busByte din' k) : presentedBytes len din = presentedBytes len din' := by
  simp only [presentedBytes, Config.hdrBytes]
  exact List.map_congr_left fun k hk => h k (List.mem_range.mp hk)

/-- Presenting the bytes that a bus was made of gives them back. -/
theorem presentedBytes_busOfBytes {len : Word} {bs : List Byte} (h : bs.length = min len.toNat 12) :
    presentedBytes len (busOfBytes bs) = bs := by
  apply List.ext_getElem?
  intro k
  rcases lt_or_ge k (min len.toNat 12) with hk | hk
  · rw [presentedBytes_getElem? _ _ hk, busByte_busOfBytes _ (by omega)]
    simp [h, hk, List.getD_eq_getElem?_getD]
  · rw [List.getElem?_eq_none (by simpa using hk), List.getElem?_eq_none (by omega)]

/-- The bus that carries the twelve bytes of a bus is that bus. -/
theorem busOfBytes_presentedBytes (din : Bus) : busOfBytes (presentedBytes 12 din) = din := by
  apply bus_ext
  intro k hk
  rw [busByte_busOfBytes _ hk, List.getD_eq_getElem?_getD,
    presentedBytes_getElem? 12 din (k := k) (by simpa using hk)]
  rfl

/-- The two bytes of a word, joined onto a bit vector, are the word joined onto it. -/
theorem append_hiByte_loByte {n : Nat} (x : BitVec n) (w : Word) :
    (x ++ hiByte w ++ loByte w : BitVec (n + 8 + 8)) = (x ++ w : BitVec (n + 16)) := by
  apply BitVec.eq_of_getLsbD_eq
  intro i hi
  have hw : (if i < 8 then (loByte w).getLsbD i else (hiByte w).getLsbD (i - 8)) = w.getLsbD i := by
    conv_rhs => rw [← hiByte_append_loByte w]
    rw [BitVec.getLsbD_append]
  rw [BitVec.getLsbD_append, BitVec.getLsbD_append, BitVec.getLsbD_append]
  rcases lt_or_ge i 8 with h8 | h8
  · simpa [h8, show i < 16 by omega] using hw
  rcases lt_or_ge i 16 with h16 | h16
  · simpa [Nat.not_lt.mpr h8, h16, show i - 8 < 8 by omega] using hw
  · simp only [Nat.not_lt.mpr h8, Nat.not_lt.mpr h16, show ¬ i - 8 < 8 by omega, if_false]
    congr 1

namespace Machine

@[simp] theorem opbit_zero : opbit 0 = 0 := rfl

theorem opbit_of_ne {o : BitVec 4} (h : o ≠ 0) : opbit o = 1 := if_pos h

@[simp] theorem fw_qr (h : Hdr) : (fw h).extractLsb' 15 1 = h.qr := by
  unfold fw
  grind

@[simp] theorem fw_gap (h : Hdr) : (fw h).extractLsb' 12 3 = 0 := by
  unfold fw
  grind

@[simp] theorem fw_opbit (h : Hdr) : (fw h).extractLsb' 11 1 = opbit h.opcode := by
  unfold fw
  grind

@[simp] theorem fw_opcode (h : Hdr) : (fw h).extractLsb' 11 4 = (opbit h.opcode).setWidth 4 := by
  unfold fw
  apply BitVec.eq_of_getLsbD_eq
  intro i hi
  rw [BitVec.getLsbD_extractLsb']
  repeat rw [BitVec.getLsbD_append]
  interval_cases i <;> simp

@[simp] theorem fw_flags (h : Hdr) : (fw h).extractLsb' 7 4 = h.flags := by
  unfold fw
  grind

@[simp] theorem fw_z (h : Hdr) : (fw h).extractLsb' 4 3 = h.z := by
  unfold fw
  grind

@[simp] theorem fw_rcode (h : Hdr) : (fw h).extractLsb' 0 4 = h.rcode := by
  unfold fw
  grind

/-- A flags word is its six parts. -/
theorem flagsWord_ext {v w : Word} (hqr : v.extractLsb' 15 1 = w.extractLsb' 15 1)
    (hgap : v.extractLsb' 12 3 = w.extractLsb' 12 3) (hop : v.extractLsb' 11 1 = w.extractLsb' 11 1)
    (hfl : v.extractLsb' 7 4 = w.extractLsb' 7 4) (hz : v.extractLsb' 4 3 = w.extractLsb' 4 3)
    (hrc : v.extractLsb' 0 4 = w.extractLsb' 0 4) : v = w := by
  apply BitVec.eq_of_getLsbD_eq
  intro i hi
  have pick : ∀ (a n k : Nat), v.extractLsb' a n = w.extractLsb' a n → k < n → v.getLsbD (a + k) = w.getLsbD (a + k) := by
    intro a n k heq hk
    simpa [hk] using congrArg (fun x : BitVec n => x.getLsbD k) heq
  rcases lt_or_ge i 4 with h | h
  · simpa using pick 0 4 i hrc h
  rcases lt_or_ge i 7 with h7 | h7
  · simpa [Nat.add_sub_cancel' h] using pick 4 3 (i - 4) hz (by omega)
  rcases lt_or_ge i 11 with h11 | h11
  · simpa [Nat.add_sub_cancel' h7] using pick 7 4 (i - 7) hfl (by omega)
  rcases lt_or_ge i 12 with h12 | h12
  · simpa [Nat.add_sub_cancel' h11] using pick 11 1 (i - 11) hop (by omega)
  rcases lt_or_ge i 15 with h15 | h15
  · simpa [Nat.add_sub_cancel' h12] using pick 12 3 (i - 12) hgap (by omega)
  · simpa [Nat.add_sub_cancel' h15] using pick 15 1 (i - 15) hqr (by omega)

end Machine

end Sys2Proof
end

