-- ==== Sys2Proof/Laws/State.lean ====
section
/-! SUPPORT. One lemma per field of State per update, so that no proof unfolds a record update. -/

namespace Sys2Proof.Machine

@[simp] theorem setHdr_hdr (h : Hdr) (s : State) : (setHdr h s).hdr = h := rfl
@[simp] theorem setHdr_host (h : Hdr) (s : State) : (setHdr h s).host = s.host := rfl
@[simp] theorem setHdr_draws (h : Hdr) (s : State) : (setHdr h s).draws = s.draws := rfl
@[simp] theorem setHdr_requests (h : Hdr) (s : State) : (setHdr h s).requests = s.requests := rfl
@[simp] theorem setHdr_rsps (h : Hdr) (s : State) : (setHdr h s).rsps = s.rsps := rfl

@[simp] theorem deliver_hdr (r : Rsp) (s : State) : (deliver r s).hdr = s.hdr := rfl
@[simp] theorem deliver_host (r : Rsp) (s : State) : (deliver r s).host = s.host := rfl
@[simp] theorem deliver_draws (r : Rsp) (s : State) : (deliver r s).draws = s.draws := rfl
@[simp] theorem deliver_requests (r : Rsp) (s : State) : (deliver r s).requests = s.requests := rfl
@[simp] theorem deliver_rsps (r : Rsp) (s : State) : (deliver r s).rsps = s.rsps ++ [r] := rfl

@[simp] theorem afterFill_hdr (s : State) : (afterFill s).hdr = s.hdr := rfl
@[simp] theorem afterFill_host (s : State) : (afterFill s).host = s.host := rfl
@[simp] theorem afterFill_draws (s : State) : (afterFill s).draws = s.draws.tail := rfl
@[simp] theorem afterFill_requests (s : State) : (afterFill s).requests = s.requests + 1 := rfl
@[simp] theorem afterFill_rsps (s : State) : (afterFill s).rsps = s.rsps := rfl

@[simp] theorem raise_hdr (e : Err) (s : State) : (raise e s).hdr = s.hdr := rfl
@[simp] theorem raise_host (e : Err) (s : State) : (raise e s).host = s.host := rfl
@[simp] theorem raise_draws (e : Err) (s : State) : (raise e s).draws = s.draws := rfl
@[simp] theorem raise_requests (e : Err) (s : State) : (raise e s).requests = s.requests := rfl
@[simp] theorem raise_rsps (e : Err) (s : State) : (raise e s).rsps = s.rsps ++ [errRsp e] := rfl

@[simp] theorem resetEvent_hdr (s : State) : (resetEvent s).hdr = Config.resetH := rfl
@[simp] theorem resetEvent_host (s : State) : (resetEvent s).host = s.host := rfl
@[simp] theorem resetEvent_draws (s : State) : (resetEvent s).draws = s.draws := rfl
@[simp] theorem resetEvent_requests (s : State) : (resetEvent s).requests = s.requests := rfl
@[simp] theorem resetEvent_rsps (s : State) : (resetEvent s).rsps = s.rsps := rfl

end Sys2Proof.Machine
end

