-- ==== Sys2Proof/Laws/Ops.lean ====
section
/-! SUPPORT. One lemma per shared operation that says everything it can do: reading and writing registers, the buffer reads,
`Dec`, and what every meaning answers. -/

namespace Sys2Proof.Machine

@[simp] theorem readField_writeField_same (h : Hdr) (f : Field) (v : BitVec f.width) :
    readField (writeField h f v) f = v := by cases f <;> rfl

theorem readField_writeField_of_ne (h : Hdr) {f g : Field} (v : BitVec f.width) (hne : g ≠ f) :
    readField (writeField h f v) g = readField h g := by
  cases f <;> cases g <;> first | rfl | exact absurd rfl hne

/-- Two headers are equal when their ten registers are. -/
theorem hdr_ext {h h' : Hdr} (heq : ∀ f, readField h f = readField h' f) : h = h' := by
  cases h
  cases h'
  exact (Hdr.mk.injEq ..).mpr ⟨heq .id, heq .qr, heq .opcode, heq .flags, heq .z, heq .rcode, heq .qdcount, heq .ancount,
    heq .nscount, heq .arcount⟩

/-- The writes of query framing as one record (`41_header_setters.md` R61). -/
theorem queryFraming_eq (h : Hdr) : queryFraming h =
    { h with qr := 0, opcode := 0, flags := 2, z := 0, rcode := 0, nscount := 0, arcount := 0 } := rfl

/-- The writes of response framing under HOLD as one record (`41_header_setters.md` R61, R62). -/
theorem responseFraming_hold_eq (h : Hdr) : responseFraming .hold h = { h with qr := 1, opcode := 1 } := rfl

/-- The writes of response framing under CLEAR as one record (`41_header_setters.md` R62). -/
theorem responseFraming_clear_eq (h : Hdr) : responseFraming .clear h =
    { h with qr := 1, opcode := 1, flags := 0, z := 0, rcode := 0 } := rfl

theorem memRead2_eq_some {len : Nat} {b : List Byte} {off : Nat} {hi lo : Byte} (hlen : off + 2 ≤ len)
    (h0 : b[off]? = some hi) (h1 : b[off + 1]? = some lo) : memRead2 len b off = some (hi ++ lo) := by
  simp [memRead2, hlen, h0, h1]

theorem memRead2_of_lt {len : Nat} {b : List Byte} {off : Nat} (h : len < off + 2) : memRead2 len b off = none := by
  simp [memRead2, Nat.not_le.mpr h]

/-- A list of length twelve is its twelve elements. -/
theorem eq_twelve_of_length {b : List Byte} (h : b.length = 12) :
    ∃ b0 b1 b2 b3 b4 b5 b6 b7 b8 b9 b10 b11 : Byte, b = [b0, b1, b2, b3, b4, b5, b6, b7, b8, b9, b10, b11] := by
  match b, h with
  | [b0, b1, b2, b3, b4, b5, b6, b7, b8, b9, b10, b11], _ =>
    exact ⟨b0, b1, b2, b3, b4, b5, b6, b7, b8, b9, b10, b11, rfl⟩

/-- `Dec` on a wrong length answers FormatError without a look at the bytes (`43_dns_header_decoder.md` R75). -/
theorem decBuffer_of_ne (mode : OpcodeMode) (strictZ : Bool) {len : Nat} (b : List Byte) (h : len ≠ 12) :
    decBuffer mode strictZ len b = .formatError := by
  simp [decBuffer, Config.hdrBytes, h]

/-- `Dec` on twelve bytes is the header of the six big-endian words (`43_dns_header_decoder.md` R72). -/
theorem decBuffer_twelve (mode : OpcodeMode) (strictZ : Bool) (b0 b1 b2 b3 b4 b5 b6 b7 b8 b9 b10 b11 : Byte) :
    decBuffer mode strictZ 12 [b0, b1, b2, b3, b4, b5, b6, b7, b8, b9, b10, b11] =
      headerOfWords mode strictZ (b0 ++ b1) (b2 ++ b3) (b4 ++ b5) (b6 ++ b7) (b8 ++ b9) (b10 ++ b11) := rfl

/-- Everything `headerOfWords` can answer. -/
theorem headerOfWords_cases (mode : OpcodeMode) (strictZ : Bool) (id w qd an ns ar : Word) :
    (strictZ = true ∧ (unfw mode w).z ≠ 0 ∧ headerOfWords mode strictZ id w qd an ns ar = .formatError) ∨
    (¬(strictZ = true ∧ (unfw mode w).z ≠ 0) ∧ headerOfWords mode strictZ id w qd an ns ar =
      .header { id := id, qr := (unfw mode w).qr, opcode := (unfw mode w).opcode, flags := (unfw mode w).flags,
                z := (unfw mode w).z, rcode := (unfw mode w).rcode, qdcount := qd, ancount := an, nscount := ns,
                arcount := ar }) := by
  by_cases h : strictZ = true ∧ (unfw mode w).z ≠ 0
  · exact .inl ⟨h.1, h.2, if_pos h⟩
  · exact .inr ⟨h, if_neg h⟩

/-- With the strict-Z option off, `headerOfWords` always answers a header. -/
theorem headerOfWords_lenient (mode : OpcodeMode) (id w qd an ns ar : Word) :
    headerOfWords mode false id w qd an ns ar =
      .header { id := id, qr := (unfw mode w).qr, opcode := (unfw mode w).opcode, flags := (unfw mode w).flags,
                z := (unfw mode w).z, rcode := (unfw mode w).rcode, qdcount := qd, ancount := an, nscount := ns,
                arcount := ar } := by
  simp [headerOfWords]

/-- `Dec` on a buffer whose presented bytes are the first min(len, 12) never reads out of bounds. -/
theorem decBuffer_ne_outOfBounds (mode : OpcodeMode) (strictZ : Bool) {len : Nat} {b : List Byte}
    (h : b.length = min len 12) : decBuffer mode strictZ len b ≠ .outOfBounds := by
  by_cases hl : len = 12
  · subst hl
    obtain ⟨b0, b1, b2, b3, b4, b5, b6, b7, b8, b9, b10, b11, rfl⟩ := eq_twelve_of_length (b := b) (by simpa using h)
    rw [decBuffer_twelve]
    rcases headerOfWords_cases mode strictZ (b0 ++ b1) (b2 ++ b3) (b4 ++ b5) (b6 ++ b7) (b8 ++ b9) (b10 ++ b11) with
      ⟨_, _, e⟩ | ⟨_, e⟩ <;> simp [e]
  · simp [decBuffer_of_ne mode strictZ b hl]

/-- What SETID answers when the provider succeeds. -/
theorem execSetid_success {s : State} {b0 b1 : Byte} (h : nextDraw s = .success b0 b1) :
    execSetid s = .next (deliver okRsp (setHdr { s.hdr with id := b0 ++ b1 } (afterFill s))) := by
  simp [execSetid, h, idOfBytes, Config.rngByteOrder, writeField]

/-- What SETID answers when the provider fails. -/
theorem execSetid_failure {s : State} (h : nextDraw s = .failure) :
    execSetid s = .next (raise .entropyFailure (afterFill s)) := by
  simp [execSetid, h, idAfterFailure, Config.idOnFail, setHdr, afterFill]

/-- What DEC answers on a wrong length. -/
theorem execDec_of_ne {len : Word} (bytes : List Byte) (s : State) (h : len ≠ 12) :
    execDec len bytes s = .next (raise .formatError s) := by
  have hn : len.toNat ≠ 12 := fun e => h (BitVec.eq_of_toNat_eq (by simpa using e))
  simp [execDec, decBuffer_of_ne _ _ _ hn]

/-- What DEC answers on twelve bytes. -/
theorem execDec_twelve (b0 b1 b2 b3 b4 b5 b6 b7 b8 b9 b10 b11 : Byte) (s : State) :
    execDec 12 [b0, b1, b2, b3, b4, b5, b6, b7, b8, b9, b10, b11] s =
      .next (deliver (headerRsp
        { id := b0 ++ b1, qr := (unfw .field4 (b2 ++ b3)).qr, opcode := (unfw .field4 (b2 ++ b3)).opcode,
          flags := (unfw .field4 (b2 ++ b3)).flags, z := (unfw .field4 (b2 ++ b3)).z,
          rcode := (unfw .field4 (b2 ++ b3)).rcode, qdcount := b4 ++ b5, ancount := b6 ++ b7, nscount := b8 ++ b9,
          arcount := b10 ++ b11 }) s) := rfl

/-- What any command can do to the state: it keeps the host's events, delivers one response, and takes the provider's answers
only as SETID does. -/
theorem exec_cases {i : Instr} {s t : State} (h : exec i s = .next t) :
    t.host = s.host ∧ (∃ r, t.rsps = s.rsps ++ [r]) ∧
    ((i = .setid ∧ t.draws = s.draws.tail ∧ t.requests = s.requests + 1) ∨
      (i ≠ .setid ∧ t.draws = s.draws ∧ t.requests = s.requests)) := by
  cases i with
  | setid =>
    change execSetid s = _ at h
    cases hd : nextDraw s with
    | success b0 b1 =>
      rw [execSetid_success hd] at h
      cases h
      exact ⟨rfl, ⟨_, rfl⟩, .inl ⟨rfl, rfl, rfl⟩⟩
    | failure =>
      rw [execSetid_failure hd] at h
      cases h
      exact ⟨rfl, ⟨_, rfl⟩, .inl ⟨rfl, rfl, rfl⟩⟩
  | dec len bytes =>
    change execDec len bytes s = _ at h
    unfold execDec at h
    split at h
    · cases h
      exact ⟨rfl, ⟨_, rfl⟩, .inr ⟨by simp, rfl, rfl⟩⟩
    · cases h
      exact ⟨rfl, ⟨_, rfl⟩, .inr ⟨by simp, rfl, rfl⟩⟩
    · cases h
  | _ =>
    cases h
    exact ⟨rfl, ⟨_, rfl⟩, .inr ⟨by simp, rfl, rfl⟩⟩

end Sys2Proof.Machine
end

