-- ==== Sys2Proof/Laws/PerInstr.lean ====
section
/-! SUPPORT. The per-instruction family OpNumber: the `op` field of the assembler's word for each command is its row's number
in spec/opcode_table.json (`30_encoding.md` R47). -/

namespace Sys2Proof.Laws.OpNumber

/-- The operation number of each command (`30_encoding.md` R47, R50). -/
def opNumber : Instr → BitVec 4
  | .new => 0x0
  | .setid => 0x1
  | .setqm _ => 0x2
  | .setqd _ => 0x3
  | .setns _ => 0x4
  | .setar _ => 0x5
  | .enc => 0x6
  | .dec _ _ => 0x7
  | .reserved8 => 0x8
  | .reserved9 => 0x9
  | .reservedA => 0xA
  | .reservedB => 0xB
  | .reservedC => 0xC
  | .reservedD => 0xD
  | .reservedE => 0xE
  | .reservedF => 0xF

/-- The assembler's word of a command has the command's operation number in bits 19 to 16. -/
def Statement (i : Instr) : Prop := opField (encode i).word = opNumber i

theorem new : Statement .new := opField_cmdWord _ _
theorem setid : Statement .setid := opField_cmdWord _ _
theorem setqm (isQuery : Bool) : Statement (.setqm isQuery) := opField_cmdWord _ _
theorem setqd (n : Word) : Statement (.setqd n) := opField_cmdWord _ _
theorem setns (n : Word) : Statement (.setns n) := opField_cmdWord _ _
theorem setar (n : Word) : Statement (.setar n) := opField_cmdWord _ _
theorem enc : Statement .enc := opField_cmdWord _ _
theorem dec (len : Word) (bytes : List Byte) : Statement (.dec len bytes) := opField_cmdWord _ _
theorem reserved8 : Statement .reserved8 := opField_cmdWord _ _
theorem reserved9 : Statement .reserved9 := opField_cmdWord _ _
theorem reservedA : Statement .reservedA := opField_cmdWord _ _
theorem reservedB : Statement .reservedB := opField_cmdWord _ _
theorem reservedC : Statement .reservedC := opField_cmdWord _ _
theorem reservedD : Statement .reservedD := opField_cmdWord _ _
theorem reservedE : Statement .reservedE := opField_cmdWord _ _
theorem reservedF : Statement .reservedF := opField_cmdWord _ _

end Sys2Proof.Laws.OpNumber
end

