-- ==== Sys2Proof/Laws/Step.lean ====
section
/-! SUPPORT. What one step and a run of steps are, for each kind of event. -/

namespace Sys2Proof.Machine

/-- The step on a state whose next event is a command. -/
theorem step_of_command {s : State} {c : Cmd} {rest : List HostEvent} (h : s.host = .command c :: rest) :
    step s = exec (decode c) { s with host := rest } := by
  simp [step, h]

/-- The step on a state whose next event is reset. -/
theorem step_of_reset {s : State} {rest : List HostEvent} (h : s.host = .reset :: rest) :
    step s = .next (resetEvent { s with host := rest }) := by
  simp [step, h]

/-- The step on a state with no event. -/
theorem step_of_idle {s : State} (h : s.host = []) : step s = .next s := by simp [step, h]

/-- Everything a step can do. -/
theorem step_cases {s t : State} (h : step s = .next t) :
    (s.host = [] ∧ t = s) ∨
    (∃ rest, s.host = .reset :: rest ∧ t = resetEvent { s with host := rest }) ∨
    (∃ c rest, s.host = .command c :: rest ∧ exec (decode c) { s with host := rest } = .next t) := by
  match hs : s.host with
  | [] =>
    rw [step_of_idle hs] at h
    cases h
    exact .inl ⟨rfl, rfl⟩
  | .reset :: rest =>
    rw [step_of_reset hs] at h
    cases h
    exact .inr (.inl ⟨rest, rfl, rfl⟩)
  | .command c :: rest =>
    rw [step_of_command hs] at h
    exact .inr (.inr ⟨c, rest, rfl, h⟩)

/-- A run takes a step and goes on from where it answers a next state. -/
theorem run_succ (M : Host.Core) (n : Nat) (s : M.State) :
    M.run (n + 1) s = match M.step s with
      | .next s' => M.run n s'
      | .fault r => .fault r
      | .refused r => .refused r := rfl

/-- One more step of a run, for any machine. -/
theorem run_succ_of_step (M : Host.Core) {s t : M.State} (h : M.step s = .next t) (n : Nat) :
    M.run (n + 1) s = M.run n t := by
  rw [run_succ, h]

/-- A run ends at a step that faults. -/
theorem run_succ_of_fault (M : Host.Core) {s : M.State} {r : M.Fault} (h : M.step s = .fault r) (n : Nat) :
    M.run (n + 1) s = .fault r := by
  rw [run_succ, h]

/-- A run ends at a step that refuses. -/
theorem run_succ_of_refused (M : Host.Core) {s : M.State} {r : M.Refusal} (h : M.step s = .refused r) (n : Nat) :
    M.run (n + 1) s = .refused r := by
  rw [run_succ, h]

/-- One more step of a run of this machine. -/
theorem run_succ_of_next {s t : State} (h : step s = .next t) (n : Nat) :
    Host.Core.run Sys2Proof.core (n + 1) s = Host.Core.run Sys2Proof.core n t :=
  run_succ_of_step Sys2Proof.core h n

/-- What every step keeps, every run keeps. -/
theorem run_keeps {P : State → Prop} (hstep : ∀ s t, P s → step s = .next t → P t) (n : Nat) :
    ∀ s t : State, P s → Host.Core.run Sys2Proof.core n s = .next t → P t := by
  induction n with
  | zero =>
    intro s t hs h
    cases h
    exact hs
  | succ n ih =>
    intro s t hs h
    match hm : step s with
    | .next u => exact ih u t (hstep s u hs hm) ((run_succ_of_next hm n).symm.trans h)
    | .fault r =>
      have hf : Host.Core.run Sys2Proof.core (n + 1) s = .fault r := run_succ_of_fault Sys2Proof.core hm n
      rw [hf] at h
      cases h
    | .refused r =>
      have hr : Host.Core.run Sys2Proof.core (n + 1) s = .refused r := run_succ_of_refused Sys2Proof.core hm n
      rw [hr] at h
      cases h

end Sys2Proof.Machine
end

