-- ==== Sys2Proof/Tests/Slice0.lean ====
section
/-! SUPPORT. Tests. Expected values are those of `95_test_vectors.md` (the vector is named in each comment) or written out
from `30_encoding.md` R46, R47, R54. The `test_witness_` theorems show that the hypotheses of the statements can be met. -/

namespace Sys2Proof.Tests

open Sys2Proof Sys2Proof.Machine

/-! ### Helpers -/

/-- The next state of an outcome, if it is one. -/
def nextOf : Host.Outcome State Fault Refusal → Option State
  | .next t => some t
  | .fault _ => none
  | .refused _ => none

/-- A machine that holds this header and nothing else. -/
def withHdr (h : Hdr) : State := { State.reset with hdr := h }

/-- The header after one command. -/
def hdrAfter (c : Cmd) (s : State) : Option Hdr := (nextOf (step { s with host := [.command c] })).map (·.hdr)

/-- The responses after one command. -/
def rspsAfter (c : Cmd) (s : State) : Option (List Rsp) := (nextOf (step { s with host := [.command c] })).map (·.rsps)

/-- The header of vector N1. -/
def hdrN1 : Hdr := ⟨0xBEEF, 1, 1, 2, 0, 0, 1, 0, 3, 2⟩

/-- Twelve zero bytes. -/
def zeros12 : List Byte := List.replicate 12 0

/-! ### WellFormed -/

/-- A DEC term with more bytes than its length says is refused by the check. -/
theorem test_wf_refuses_extra_bytes : (Instr.dec 2 [1, 2, 3]).wellFormed = false := by decide

/-- A DEC term with fewer bytes than the bus presents is refused by the check. -/
theorem test_wf_refuses_missing_bytes : (Instr.dec 12 [1, 2, 3]).wellFormed = false := by decide

/-- A DEC term of length 13 holds the twelve bytes that are presented. -/
theorem test_wf_accepts_presented : (Instr.dec 13 zeros12).wellFormed = true := by decide

/-- The ill-formed term is the one that faults. -/
theorem test_ill_formed_dec_faults : nextOf (exec (.dec 12 [1, 2, 3]) State.reset) = none := by decide

/-! ### Decoding, from the words of R46, R47, R54: op in bits 19 to 16, arg below -/

theorem test_decode_new : decode ⟨0b0000_0000000000000000, 0⟩ = .new := by decide
theorem test_decode_new_junk : decode ⟨0x0ABCD, 0⟩ = .new := by decide -- N2
theorem test_decode_setid_junk : decode ⟨0x1FFFF, 0⟩ = .setid := by decide -- I8
theorem test_decode_setqm_one : decode ⟨0b0010_0000000000000001, 0⟩ = .setqm true := by decide
theorem test_decode_setqm_junk : decode ⟨0x2FFFE, 0⟩ = .setqm false := by decide -- Q9
theorem test_decode_setqd : decode ⟨0b0011_1000000000000001, 0⟩ = .setqd 0x8001 := by decide
theorem test_decode_setns : decode ⟨0b0100_0000000000000011, 0⟩ = .setns 3 := by decide
theorem test_decode_setar : decode ⟨0b0101_0000000100000010, 0⟩ = .setar 258 := by decide -- K6
theorem test_decode_enc_junk : decode ⟨0x6FFFF, 0⟩ = .enc := by decide -- M5
theorem test_decode_dec : decode ⟨0b0111_0000000000000011, 0xAABBCCDD0000000000000000⟩ = .dec 3 [0xAA, 0xBB, 0xCC] := by decide
theorem test_decode_dec_long : decode ⟨0x7FFFF, 0⟩ = .dec 65535 zeros12 := by decide
/-- The longest length that `LEN_W` admits (Lmax). -/
theorem test_len_operand_range : (lenOperand 0x7FFFF).toNat = 65535 ∧ 65535 + 1 = 2 ^ Config.lenW := by decide
theorem test_decode_reserved8 : decode ⟨0x80000, 0⟩ = .reserved8 := by decide -- M1
theorem test_decode_reserved9 : decode ⟨0x9000C, 0⟩ = .reserved9 := by decide -- M3
theorem test_decode_reservedA : decode ⟨0xA0000, 0⟩ = .reservedA := by decide
theorem test_decode_reservedB : decode ⟨0xB0001, 0⟩ = .reservedB := by decide
theorem test_decode_reservedC : decode ⟨0xC0000, 0⟩ = .reservedC := by decide
theorem test_decode_reservedD : decode ⟨0xD0000, 0⟩ = .reservedD := by decide
theorem test_decode_reservedE : decode ⟨0xE0000, 0⟩ = .reservedE := by decide
theorem test_decode_reservedF : decode ⟨0xFFFFF, 0⟩ = .reservedF := by decide -- M2

/-- The encoder writes the words of R54. -/
theorem test_encode_words :
    (encode (.setqm true)).word = 0x20001 ∧ (encode (.setqd 1)).word = 0x30001 ∧ (encode (.setar 0xFFFF)).word = 0x5FFFF ∧
    encode (.dec 3 [0xAA, 0xBB, 0xCC]) = ⟨0x70003, 0xAABBCC000000000000000000⟩ := by decide

/-- The decoder on the table's bits, in three bytes, and a word that is wider than a command word. -/
theorem test_decodeTableWord :
    decodeTableWord 24 0x30001 = some (.setqd 1) ∧ decodeTableWord 24 0x70000 = some (.dec 0 []) ∧
    decodeTableWord 24 0x100000 = none := by decide

/-- The first step after reset runs the command placed there. -/
theorem test_withFetchWord_first_step :
    (nextOf (step (State.reset.withFetchWord 24 0x30001))).map (·.hdr.qdcount) = some 1 := by decide

/-- A command that is placed takes effect before the events already waiting, and they stay. -/
theorem test_withFetchWord_keeps_host :
    (nextOf (step (({ State.reset with host := [.reset] } : State).withFetchWord 24 0x50001))).map (fun t => (t.hdr.arcount, t.host))
      = some (1, [.reset]) := by decide

/-! ### The encoder: E6 to E18 -/

theorem test_enc_E6 : encHdr ⟨0xFFFF, 1, 15, 15, 7, 15, 0xFFFF, 0xFFFF, 0xFFFF, 0xFFFF⟩ =
    [0xFF, 0xFF, 0x8F, 0xFF, 0xFF, 0xFF, 0xFF, 0xFF, 0xFF, 0xFF, 0xFF, 0xFF] := by decide
theorem test_fw_E7_to_E10 : fw ⟨0, 0, 2, 0, 0, 0, 0, 0, 0, 0⟩ = 0x0800 ∧ fw ⟨0, 0, 8, 0, 0, 0, 0, 0, 0, 0⟩ = 0x0800 ∧
    fw ⟨0, 0, 0, 8, 0, 0, 0, 0, 0, 0⟩ = 0x0400 ∧ fw ⟨0, 0, 0, 4, 0, 0, 0, 0, 0, 0⟩ = 0x0200 := by decide
theorem test_fw_E11_to_E15 : fw ⟨0, 0, 0, 1, 0, 0, 0, 0, 0, 0⟩ = 0x0080 ∧ fw ⟨0, 0, 0, 0, 4, 0, 0, 0, 0, 0⟩ = 0x0040 ∧
    fw ⟨0, 0, 0, 0, 7, 0, 0, 0, 0, 0⟩ = 0x0070 ∧ fw ⟨0, 0, 0, 0, 0, 3, 0, 0, 0, 0⟩ = 0x0003 := by decide
theorem test_enc_E16 : encHdr ⟨0x1234, 1, 0, 9, 0, 3, 1, 0, 1, 0⟩ =
    [0x12, 0x34, 0x84, 0x83, 0x00, 0x01, 0x00, 0x00, 0x00, 0x01, 0x00, 0x00] := by decide
theorem test_enc_E17 : encHdr ⟨0x0102, 0, 0, 0, 0, 0, 0x0304, 0x0506, 0x0708, 0x090A⟩ =
    [0x01, 0x02, 0x00, 0x00, 0x03, 0x04, 0x05, 0x06, 0x07, 0x08, 0x09, 0x0A] := by decide
theorem test_enc_E18 : encHdr ⟨0x00FF, 0, 0, 0, 0, 0, 0xFF00, 0x8000, 0x0001, 0x7FFF⟩ =
    [0x00, 0xFF, 0x00, 0x00, 0xFF, 0x00, 0x80, 0x00, 0x00, 0x01, 0x7F, 0xFF] := by decide

/-- ENC on the header of E5. -/
theorem test_enc_response_E5 : rspsAfter ⟨0x60000, 0⟩ (withHdr ⟨0xBEEF, 0, 0, 2, 0, 0, 1, 0, 0, 0⟩) =
    some [⟨0, 0xBEEF01000001000000000000, zeroHdr⟩] := by decide

/-! ### The decoder: X2 to X5, L11, L13 -/

theorem test_dec_X2 : decBytes .field4 false [0, 0, 0x28, 0, 0, 0, 0, 0, 0, 0, 0, 0] = .header ⟨0, 0, 5, 0, 0, 0, 0, 0, 0, 0⟩ ∧
    decBytes .bit11 false [0, 0, 0x28, 0, 0, 0, 0, 0, 0, 0, 0, 0] = .header ⟨0, 0, 1, 0, 0, 0, 0, 0, 0, 0⟩ := by decide
theorem test_dec_X3 : decBytes .field4 false [0, 0, 0x10, 0, 0, 0, 0, 0, 0, 0, 0, 0] = .header ⟨0, 0, 2, 0, 0, 0, 0, 0, 0, 0⟩ ∧
    decBytes .bit11 false [0, 0, 0x10, 0, 0, 0, 0, 0, 0, 0, 0, 0] = .header zeroHdr := by decide
theorem test_dec_X4 : decBytes .field4 false [0, 0, 0, 0x40, 0, 0, 0, 0, 0, 0, 0, 0] = .header ⟨0, 0, 0, 0, 4, 0, 0, 0, 0, 0⟩ ∧
    decBytes .field4 true [0, 0, 0, 0x40, 0, 0, 0, 0, 0, 0, 0, 0] = .formatError := by decide
theorem test_dec_X5 : decBytes .field4 false (List.replicate 12 0xFF) =
    .header ⟨0xFFFF, 1, 15, 15, 7, 15, 0xFFFF, 0xFFFF, 0xFFFF, 0xFFFF⟩ := by decide
theorem test_dec_L11 : rspsAfter ⟨0x7000B, 0x123481800001000200030004⟩ (withHdr hdrN1) = some [statusRsp 2] := by decide
theorem test_dec_L13 : rspsAfter ⟨0x7000D, 0x123481800001000200030004⟩ (withHdr hdrN1) = some [statusRsp 2] := by decide

/-! ### The setters: Q, K, N -/

theorem test_setqm_Q5 : hdrAfter ⟨0x20001, 0⟩ (withHdr ⟨0xBEEF, 0, 0, 0, 0, 0, 1, 0, 3, 2⟩) =
    some ⟨0xBEEF, 0, 0, 2, 0, 0, 1, 0, 0, 0⟩ := by decide
theorem test_setqm_Q6 : hdrAfter ⟨0x20000, 0⟩ (withHdr ⟨0xBEEF, 0, 0, 0, 0, 0, 1, 0, 3, 2⟩) =
    some ⟨0xBEEF, 1, 1, 0, 0, 0, 1, 0, 3, 2⟩ := by decide
theorem test_setqd_K3 : hdrAfter ⟨0x3FFFF, 0⟩ (withHdr hdrN1) = some ⟨0xBEEF, 1, 1, 2, 0, 0, 0xFFFF, 0, 3, 2⟩ := by decide
theorem test_setns_K4 : hdrAfter ⟨0x40003, 0⟩ (withHdr ⟨0, 0, 0, 2, 0, 0, 0, 0, 0, 0⟩) = some ⟨0, 0, 0, 2, 0, 0, 0, 0, 3, 0⟩ := by decide
theorem test_setar_K6 : hdrAfter ⟨0x50102, 0⟩ (withHdr hdrN1) = some ⟨0xBEEF, 1, 1, 2, 0, 0, 1, 0, 3, 0x0102⟩ := by decide
theorem test_new_N1 : hdrAfter ⟨0x00000, 0⟩ (withHdr hdrN1) = some zeroHdr := by decide

/-! ### The ID injector: I3, I7 -/

theorem test_setid_I3 : (nextOf (exec .setid { withHdr hdrN1 with draws := [.failure] })).map (fun t => (t.hdr, t.rsps)) =
    some (hdrN1, [statusRsp 1]) := by decide
theorem test_setid_I7 : (nextOf (exec .setid { withHdr ⟨0, 1, 1, 2, 0, 0, 1, 0, 3, 2⟩ with draws := [.success 0xFF 0xFF] })).map (·.hdr) =
    some ⟨0xFFFF, 1, 1, 2, 0, 0, 1, 0, 3, 2⟩ := by decide

/-- I2: `buffer[0]` is the high byte. -/
theorem test_setid_I2 : (nextOf (exec .setid { withHdr hdrN1 with draws := [.success 0x00 0x01] })).map (·.hdr.id) = some 0x0001 := by decide

/-! ### Reserved words, reset, the pseudo-command QUERY -/

theorem test_reserved_M3 : (hdrAfter ⟨0x9000C, 0⟩ (withHdr hdrN1), rspsAfter ⟨0x9000C, 0⟩ (withHdr hdrN1)) =
    (some hdrN1, some [statusRsp 3]) := by decide
theorem test_reset_event : (nextOf (step { withHdr hdrN1 with host := asmReset })).map (fun t => (t.hdr, t.rsps)) = some (zeroHdr, []) := by
  decide
theorem test_query_words : asmQuery 1 =
    [.command ⟨0x00000, 0⟩, .command ⟨0x20001, 0⟩, .command ⟨0x30001, 0⟩, .command ⟨0x10000, 0⟩] := by decide

/-! ### The hypotheses of the statements can be met -/

theorem test_witness_RegisterBankLaws : (Field.id : Field) ≠ Field.arcount := by decide

theorem test_witness_DecodeByOperationNumber :
    0 < min (1 : Word).toNat 12 ∧ 11 < min (12 : Word).toNat 12 ∧ 11 < min (0xFFFF : Word).toNat 12 := by decide

theorem test_witness_DecodeOfEncode : (Instr.dec 0 []).wellFormed = true ∧ (Instr.dec 12 zeros12).wellFormed = true ∧
    (Instr.dec 0xFFFF zeros12).wellFormed = true ∧ (Instr.setqm false).wellFormed = true := by decide

theorem test_witness_IgnoredBits_arg :
    ((2 : BitVec 4) = 2 ∧ (0xFFFE : Word).getLsbD 0 = (0 : Word).getLsbD 0) ∧ ((0xFFFE : Word) ≠ 0) ∧
    ((3 : Word) = 3 ∧ (15 : BitVec 4) ≠ 7) := by decide

/-- Length 2: the buses differ from byte 2 on and agree on bytes 0 and 1. -/
theorem test_witness_IgnoredBits_beyond_len :
    (∀ k < min (2 : Word).toNat 12, busByte 0x1234FF000000000000000000 k = busByte 0x123400000000000000000000 k) ∧
    (0x1234FF000000000000000000 : Bus) ≠ 0x123400000000000000000000 := by decide

theorem test_witness_IgnoredBits_len : (11 : Word) ≠ 12 ∧ (13 : Word) ≠ 12 ∧ (0 : Word) ≠ 12 ∧ (0xFFFF : Word) ≠ 12 := by decide

theorem test_witness_FlagsWordImage_opcodes : (1 : BitVec 4) ≠ 0 ∧ (15 : BitVec 4) ≠ 0 := by decide

/-- Two headers that differ in ID alone: OPCODE 1 and equal flags words. -/
theorem test_witness_FlagsWordImage_injective :
    hdrN1.opcode = 1 ∧ ({ hdrN1 with id := 0 } : Hdr).opcode = 1 ∧ fw hdrN1 = fw { hdrN1 with id := 0 } := by decide

theorem test_witness_FlagsWordImage_value : let h : Hdr := ⟨0xBEEF, 0, 0, 2, 0, 0, 1, 0, 0, 0⟩
    h.qr = 0 ∧ h.opcode = 0 ∧ h.flags = 2 ∧ h.z = 0 ∧ h.rcode = 0 := by decide

/-- Two states with equal headers and different histories. -/
theorem test_witness_EncoderProperties_purity : let s := withHdr hdrN1
    let s' : State := { s with rsps := [statusRsp 3], draws := [.failure], requests := 7 }
    s.hdr = s'.hdr ∧ s ≠ s' := by decide

theorem test_witness_EncoderProperties_injective :
    (zeroHdr.opcode = 0 ∨ zeroHdr.opcode = 1) ∧ encHdr zeroHdr = encHdr { zeroHdr with qr := 0 } := by decide

theorem test_witness_OpcodeQuirk : zeroHdr.opcode = 0 ∧ hdrN1.opcode ≠ 0 ∧ ({ hdrN1 with opcode := 15 } : Hdr).opcode ≠ 0 := by decide

theorem test_witness_SetidResult_success : nextDraw { State.reset with draws := [.success 0xBE 0xEF] } = .success 0xBE 0xEF := by decide

theorem test_witness_SetidResult_failure : nextDraw { State.reset with draws := [.failure] } = .failure := by decide

theorem test_witness_SetidFailure : let s : State := { withHdr hdrN1 with draws := [.failure, .success 0 1] }
    nextDraw s = .failure ∧ s.draws = .failure :: .success 0 1 :: [] := by decide

theorem test_witness_OneRequestPerSetid : Instr.enc ≠ Instr.setid ∧ (nextOf (exec .enc State.reset)).isSome = true := by decide

theorem test_witness_SetterLaws_idempotent : isSetter .new = true ∧ isSetter (.setqm true) = true ∧ isSetter (.setar 0xFFFF) = true := by
  decide

/-- SETQM 0 with SETNS, SETQM 1 with SETQD, two count setters, and one setter with itself, are not excepted. -/
theorem test_witness_SetterLaws_commute :
    (excepted (.setqm false) (.setns 3) = false ∧ excepted (.setns 3) (.setqm false) = false) ∧
    (excepted (.setqm true) (.setqd 1) = false ∧ excepted (.setqd 1) (.setqm true) = false) ∧
    (excepted (.setns 3) (.setar 3) = false ∧ excepted (.setar 3) (.setns 3) = false) ∧
    excepted (.setqd 1) (.setqd 1) = false := by decide

/-- The excepted pairs do differ: SETNS 3 and SETQM 1 leave another count in the other order. -/
theorem test_excepted_pair_differs :
    ((nextOf (andThen (exec (.setns 3) State.reset) (exec (.setqm true)))).map (·.hdr.nscount),
     (nextOf (andThen (exec (.setqm true) State.reset) (exec (.setns 3)))).map (·.hdr.nscount)) = (some 0, some 3) := by decide

theorem test_witness_SetterLaws_ancount : exec .new (withHdr hdrN1) = .next { withHdr hdrN1 with hdr := zeroHdr, rsps := [statusRsp 0] } :=
  rfl

theorem test_witness_SetidIndependent : nextDraw { State.reset with draws := [.success 0 0] } ≠ .failure ∧
    isSetter (.setqm true) = true ∧ Instr.setqm true ≠ .new := by decide

theorem test_witness_DecoderResult : ([] : List Byte).length ≠ 12 ∧ (List.replicate 11 (0 : Byte)).length ≠ 12 ∧
    (List.replicate 13 (0 : Byte)).length ≠ 12 ∧ zeros12.length = 12 := by decide

theorem test_witness_DecoderNeverReads : (11 : Nat) ≠ 12 ∧ (13 : Nat) ≠ 12 ∧ zeros12.length = 12 ∧
    decBytes .field4 false zeros12 = decBytes .field4 false (zeros12 ++ []) := by decide

theorem test_witness_StrictZ : zeros12.length = 12 ∧ (List.replicate 11 (0xFF : Byte)).length ≠ 12 := by decide

theorem test_witness_OpcodeModesDisagree : ([0, 0, 0x28, 0, 0, 0, 0, 0, 0, 0, 0, 0] : List Byte).length = 12 := by decide

theorem test_witness_FlagsWordRoundTrips : (OpcodeMode.field4 = .field4) ∧ (OpcodeMode.bit11 = .bit11) := by decide

theorem test_witness_DecResult : zeros12.length = 12 ∧ (11 : Word) ≠ 12 ∧ (13 : Word) ≠ 12 ∧ (0xFFFF : Word) ≠ 12 := by decide

theorem test_witness_DecodeInvertsEncode : zeroHdr.opcode = 0 ∧ hdrN1.opcode = 1 := by decide

/-- X3's flags word 0x1000 has bits 14 to 12 set; X9's 0x0800 has not. -/
theorem test_witness_EncodeAfterDecode : ((0x10#8 ++ 0x00#8 : Word)).extractLsb' 12 3 ≠ 0 ∧
    ((0x08#8 ++ 0x00#8 : Word)).extractLsb' 12 3 = 0 := by decide

theorem test_witness_DecoderIsABijection : zeros12.length = 12 ∧ 2 ≤ ({ zeroHdr with opcode := 2 } : Hdr).opcode.toNat ∧
    2 ≤ ({ zeroHdr with opcode := 15 } : Hdr).opcode.toNat := by decide

theorem test_witness_MemRead : 11 + 1 ≤ zeros12.length ∧ ¬ 12 + 1 ≤ zeros12.length ∧ 10 + 2 ≤ zeros12.length ∧
    ¬ 11 + 2 ≤ zeros12.length := by decide

theorem test_witness_MemWrite : blankW.length = 12 ∧ (memWrite1 blankW 11 0xAB).isSome = true ∧ memWrite1 blankW 12 0xAB = none ∧
    (memWrite2 blankW 10 0xABCD).isSome = true ∧ memWrite2 blankW 11 0xABCD = none := by decide

theorem test_witness_BusHoldsTwelveBytes : zeros12.length = 12 ∧ 0 < 12 ∧ 11 < 12 := by decide

theorem test_witness_ReservedOps : 8 ≤ ((0x80000 : CmdWord).extractLsb' 16 4).toNat ∧ 8 ≤ ((0xFFFFF : CmdWord).extractLsb' 16 4).toNat ∧
    ((0x7FFFF : CmdWord).extractLsb' 16 4).toNat < 8 ∧ ((0x00000 : CmdWord).extractLsb' 16 4).toNat < 8 ∧
    Instr.reservedF ∈ [Instr.reserved8, .reservedF] := by decide

/-- A step that raises: the next state's response has a nonzero status. -/
theorem test_witness_ErrorsArePrecise : step { withHdr hdrN1 with host := [.command ⟨0x80000, 0⟩] } =
    .next { withHdr hdrN1 with rsps := [statusRsp 3] } ∧ (statusRsp 3).status ≠ 0 := ⟨rfl, by decide⟩

theorem test_witness_ErrorsAreNotSticky : (Instr.dec 11 (List.replicate 11 0)).wellFormed = true ∧ Instr.setid.wellFormed = true ∧
    (11 : Word) ≠ 12 := by decide

theorem test_witness_WritersAndReaders : (nextOf (exec (.dec 12 zeros12) State.reset)).isSome = true ∧
    (nextOf (exec (.dec 12 zeros12) (withHdr hdrN1))).isSome = true ∧ Instr.dec 12 zeros12 ≠ .enc := by decide

/-- A reachable header that is not the reset one, in a state whose step is a next state. -/
theorem test_witness_StepKeepsReachableHeader : ReachableHdr hdrN1 ∧
    (nextOf (step { withHdr hdrN1 with host := [.command ⟨0x20001, 0⟩] })).isSome = true :=
  ⟨⟨rfl, rfl, rfl, .inr rfl, rfl⟩, by decide⟩

/-- A header no run reaches. -/
theorem test_unreachable_header : ¬ ReachableHdr { hdrN1 with z := 1 } := fun h => absurd h.2.1 (by decide)

/-- A delivered response that carries encoded bytes, in its form, in a state whose step is a next state. -/
theorem test_witness_StepKeepsResponsesInForm :
    (∀ r ∈ [bytesRsp 0xBEEF01000001000000000000], RspForm r) ∧
    (nextOf (step { State.reset with rsps := [bytesRsp 0xBEEF01000001000000000000], host := [.command ⟨0x60000, 0⟩] })).isSome = true := by
  refine ⟨fun r hr => ?_, by decide⟩
  rw [List.mem_singleton.mp hr]
  exact ⟨fun h => absurd rfl h, .inr rfl, by decide⟩

/-- A run from reset of one ENC, which delivers one response. -/
theorem test_witness_ResponsesInFormAtReset :
    Host.Core.run Sys2Proof.core 1 { State.reset with host := [.command ⟨0x60000, 0⟩], draws := [.failure] } =
      .next { State.reset with draws := [.failure], rsps := [statusRsp 0] } ∧ [statusRsp 0] ≠ ([] : List Rsp) :=
  ⟨rfl, by decide⟩

end Sys2Proof.Tests
end

section
/-! PROOFS. The family 10_state: the register bank, its reset value, and who writes and reads each field
(`10_state.md` R16, R21, R23, R24). -/

namespace Sys2Proof.Machine

/-! ### The reset value of the bank -/

/-- RESET_H holds 0 in every register (`10_state.md` R23). -/
@[simp] theorem readField_resetH (f : Field) : readField Config.resetH f = 0 := by cases f <;> rfl

/-- The encoding of the reset header (`10_state.md` R24). -/
theorem encHdr_resetH : encHdr Config.resetH = List.replicate 12 0 := by decide

/-- A buffer of zero bytes is the bus value 0. -/
theorem busOfBytes_replicate_zero : busOfBytes (List.replicate 12 0) = 0 := by decide

/-- NEW on any state: H takes RESET_H, and one response with status 0 and no data is delivered (`41_header_setters.md` R60). -/
theorem exec_new (s : State) :
    exec .new s = .next { s with hdr := Config.resetH, rsps := s.rsps ++ [statusRsp 0] } := rfl

/-- ENC on any state: H is kept, and the response carries its encoding (`42_dns_header_encoder.md` R68). -/
theorem exec_enc (s : State) :
    exec .enc s = .next { s with rsps := s.rsps ++ [bytesRsp (busOfBytes (encHdr s.hdr))] } := rfl

/-! ### The values the setters write, register by register -/

@[simp] theorem only_self (g : Field) (v : BitVec g.width) : only g v g = some v := by simp [only]

theorem only_of_ne {f g : Field} (v : BitVec g.width) (h : g ≠ f) : only g v f = none := by simp [only, h]

/-- A register write changes the register that `only` names and keeps the others. -/
theorem readField_writeField (h : Hdr) (f g : Field) (v : BitVec g.width) :
    readField (writeField h g v) f = (only g v f).getD (readField h f) := by
  by_cases hgf : g = f
  · subst hgf
    simp
  · rw [readField_writeField_of_ne h v (Ne.symm hgf), only_of_ne v hgf, Option.getD_none]

/-- Query framing writes the registers `queryWrites` lists and keeps the others (`41_header_setters.md` R61). -/
theorem readField_queryFraming (h : Hdr) (f : Field) :
    readField (queryFraming h) f = (queryWrites f).getD (readField h f) := by cases f <;> rfl

/-- Response framing under HOLD writes the registers `responseWrites` lists and keeps the others
(`41_header_setters.md` R61, R62). -/
theorem readField_responseFraming_hold (h : Hdr) (f : Field) :
    readField (responseFraming .hold h) f = (responseWrites f).getD (readField h f) := by cases f <;> rfl

/-! ### What a command writes and what its response depends on -/

/-- Where DEC answers a next state it does nothing but deliver a response fixed by its operands: the same response from every
state (`43_dns_header_decoder.md` R73, R74). -/
theorem execDec_delivers {len : Word} {bytes : List Byte} {s t : State} (h : execDec len bytes s = .next t) :
    ∃ r : Rsp, ∀ s' : State, execDec len bytes s' = .next (deliver r s') := by
  unfold execDec at h ⊢
  cases hd : decBuffer Config.decOpcodeMode Config.strictZ len.toNat bytes with
  | header h' => exact ⟨headerRsp h', fun _ => rfl⟩
  | formatError => exact ⟨errRsp .formatError, fun _ => rfl⟩
  | outOfBounds => simp [hd] at h

/-- After any command each register holds the value `writtenValue` lists, or its old value (`10_state.md` R21). -/
theorem readField_of_exec {i : Instr} {s t : State} (f : Field) (h : exec i s = .next t) :
    readField t.hdr f = (writtenValue i (nextDraw s) f).getD (readField s.hdr f) := by
  cases i with
  | new =>
    cases h
    exact readField_resetH f
  | setid =>
    change execSetid s = _ at h
    cases hd : nextDraw s with
    | success b0 b1 =>
      rw [execSetid_success hd] at h
      cases h
      exact readField_writeField s.hdr f .id (b0 ++ b1)
    | failure =>
      rw [execSetid_failure hd] at h
      cases h
      rfl
  | setqm q =>
    cases h
    cases q with
    | true => exact readField_queryFraming s.hdr f
    | false => exact readField_responseFraming_hold s.hdr f
  | setqd n =>
    cases h
    exact readField_writeField s.hdr f .qdcount n
  | setns n =>
    cases h
    exact readField_writeField s.hdr f .nscount n
  | setar n =>
    cases h
    exact readField_writeField s.hdr f .arcount n
  | dec len bytes =>
    obtain ⟨r, hr⟩ := execDec_delivers h
    cases (hr s).symm.trans h
    rfl
  | _ =>
    cases h
    rfl

/-- The provider's next answer does not depend on `H` (`40_csprng_id_injector.md` R56). -/
@[simp] theorem nextDraw_setHdr (h : Hdr) (s : State) : nextDraw (setHdr h s) = nextDraw s := rfl

/-- The response of a command other than ENC is the same whatever `H` holds (`10_state.md` R21). -/
theorem rsps_eq_of_exec_setHdr {i : Instr} {s t t' : State} {h : Hdr} (hne : i ≠ .enc) (ht : exec i s = .next t)
    (ht' : exec i (setHdr h s) = .next t') : t'.rsps = t.rsps := by
  cases i with
  | enc => exact absurd rfl hne
  | setid =>
    change execSetid s = _ at ht
    change execSetid (setHdr h s) = _ at ht'
    cases hd : nextDraw s with
    | success b0 b1 =>
      rw [execSetid_success hd] at ht
      rw [execSetid_success ((nextDraw_setHdr h s).trans hd)] at ht'
      cases ht
      cases ht'
      rfl
    | failure =>
      rw [execSetid_failure hd] at ht
      rw [execSetid_failure ((nextDraw_setHdr h s).trans hd)] at ht'
      cases ht
      cases ht'
      rfl
  | dec len bytes =>
    obtain ⟨r, hr⟩ := execDec_delivers ht
    cases (hr s).symm.trans ht
    cases (hr (setHdr h s)).symm.trans ht'
    rfl
  | _ =>
    cases ht
    cases ht'
    rfl

/-- In the zero header, writing 1 into any one register changes the encoding. -/
theorem encHdr_writeField_one_ne (f : Field) : encHdr (writeField zeroHdr f 1) ≠ encHdr zeroHdr := by
  cases f <;> decide

/-! ### The obligations -/

/-- Settles O1: RESET_H is zero in each register, and NEW writes RESET_H. -/
theorem resetHeaderIsAllZero : Obligations.ResetHeaderIsAllZero := by
  unfold Obligations.ResetHeaderIsAllZero
  have zero (f : Field) : readField State.reset.hdr f = 0 := readField_resetH f
  exact ⟨⟨zero .id, zero .qr, zero .opcode, zero .flags, zero .z, zero .rcode, zero .qdcount, zero .ancount, zero .nscount,
    zero .arcount⟩, exec_new⟩

/-- Settles O3: what ENC answers on any state, at the header whose encoding is twelve zero bytes. -/
theorem encodeInResetState : Obligations.EncodeInResetState := by
  unfold Obligations.EncodeInResetState
  have zero (f : Field) : readField State.reset.hdr f = 0 := readField_resetH f
  have enc : encHdr State.reset.hdr = List.replicate 12 0 := encHdr_resetH
  refine ⟨zero .qr, zero .opcode, zero .flags, zero .id, enc, fun s => ?_⟩
  rw [exec_enc, enc, busOfBytes_replicate_zero]
  rfl

/-- Settles O4: the table of indexes and widths by evaluation, the two laws from those of `writeField`. -/
theorem registerBankLaws : Obligations.RegisterBankLaws := by
  unfold Obligations.RegisterBankLaws
  exact ⟨rfl, rfl, readField_writeField_same, fun h _ _ v hne => readField_writeField_of_ne h v hne⟩

/-- Settles O50: the writes by `readField_of_exec`, the readers by `rsps_eq_of_exec_setHdr`, and the ten registers that ENC
reads by the headers that hold a single 1. -/
theorem writersAndReadersOfEveryField : Obligations.WritersAndReadersOfEveryField := by
  unfold Obligations.WritersAndReadersOfEveryField
  exact ⟨fun _ _ _ f => readField_of_exec f, fun _ f => readField_resetH f, fun _ _ _ _ _ => rsps_eq_of_exec_setHdr,
    fun f => ⟨zeroHdr, 1, encHdr_writeField_one_ne f⟩⟩

end Sys2Proof.Machine
end

section
/-! PROOFS. The family 20_memory: the encode output buffer and its 96-bit value (`20_memory.md` R26). -/

namespace Sys2Proof.Machine

/-- The output buffer `W` holds exactly twelve bytes (`20_memory.md` R26). -/
@[simp] theorem encHdr_length (h : Hdr) : (encHdr h).length = 12 := rfl

/-- Byte k of a twelve-byte buffer is byte k of the bus that carries the buffer (`20_memory.md` R26). -/
theorem getElem?_eq_busByte {b : List Byte} {k : Nat} (hb : b.length = 12) (hk : k < 12) :
    b[k]? = some (busByte (busOfBytes b) k) := by
  have hkb : k < b.length := by omega
  rw [busByte_busOfBytes b hk, List.getD_eq_getElem b 0 hkb, List.getElem?_eq_getElem hkb]

/-- Settles O45: the bytes out of the bus by `getElem?_eq_busByte`, the bus out of its bytes by `busOfBytes_presentedBytes`,
and ENC's response as the bus of `W`. -/
theorem busHoldsTwelveBytes : Obligations.BusHoldsTwelveBytes := by
  unfold Obligations.BusHoldsTwelveBytes
  refine ⟨encHdr_length, fun _ _ => getElem?_eq_busByte, busOfBytes_presentedBytes, fun s => ?_⟩
  exact ⟨bytesRsp (busOfBytes (encHdr s.hdr)), exec_enc s, fun _ => getElem?_eq_busByte (encHdr_length s.hdr)⟩

end Sys2Proof.Machine
end

section
/-! PROOFS. The family 30_encoding: the command word, the operand of each format, and the bits that no command reads
(`30_encoding.md` R46 to R50). -/

namespace Sys2Proof.Machine

/-! ### Decoding by the operation number -/

/-- A command word is its two fields (`30_encoding.md` R46). -/
theorem cmdWord_eq_fields (w : CmdWord) : w = w.extractLsb' 16 4 ++ w.extractLsb' 0 16 :=
  (BitVec.extractLsb'_append_extractLsb' (w := 4) (len := 16) (x := w)).symm

theorem exists_cmdWord_fields (w : CmdWord) : ∃ (op : BitVec 4) (arg : Word), w = op ++ arg := ⟨_, _, cmdWord_eq_fields w⟩

section
variable (arg : Word) (din : Bus)

theorem decode_new : decode ⟨0x0#4 ++ arg, din⟩ = .new := by simp [decode]
theorem decode_setid : decode ⟨0x1#4 ++ arg, din⟩ = .setid := by simp [decode]
theorem decode_setqm : decode ⟨0x2#4 ++ arg, din⟩ = .setqm (arg.getLsbD 0) := by simp [decode]
theorem decode_setqd : decode ⟨0x3#4 ++ arg, din⟩ = .setqd arg := by simp [decode]
theorem decode_setns : decode ⟨0x4#4 ++ arg, din⟩ = .setns arg := by simp [decode]
theorem decode_setar : decode ⟨0x5#4 ++ arg, din⟩ = .setar arg := by simp [decode]
theorem decode_enc : decode ⟨0x6#4 ++ arg, din⟩ = .enc := by simp [decode]
theorem decode_dec : decode ⟨0x7#4 ++ arg, din⟩ = .dec arg (presentedBytes arg din) := by simp [decode]

end

/-- Settles O6: `decode` on each operation number. -/
theorem decodeByOperationNumber : Obligations.DecodeByOperationNumber := by
  unfold Obligations.DecodeByOperationNumber
  refine ⟨cmdWord_eq_fields, fun arg din => ⟨decode_new arg din, decode_setid arg din, decode_setqm arg din,
    decode_setqd arg din, decode_setns arg din, decode_setar arg din, decode_enc arg din,
    ⟨presentedBytes arg din, decode_dec arg din, presentedBytes_length arg din, fun _ => presentedBytes_getElem? arg din⟩,
    ?_⟩⟩
  refine ⟨?_, ?_, ?_, ?_, ?_, ?_, ?_, ?_⟩ <;> simp [decode]

/-! ### Bits that no command reads -/

/-- The step on a command depends on what the command decodes to alone. -/
theorem step_congr_decode (s : State) (rest : List HostEvent) {c c' : Cmd} (h : decode c = decode c') :
    step { s with host := .command c :: rest } = step { s with host := .command c' :: rest } := by
  simp only [step, h]

/-- Outside DEC the data bus is ignored (`30_encoding.md` R49). -/
theorem decode_congr_bus {w : CmdWord} (hop : opField w ≠ 7) (din din' : Bus) : decode ⟨w, din⟩ = decode ⟨w, din'⟩ := by
  have h7 : (opField w).toNat ≠ 7 := fun h => hop (BitVec.eq_of_toNat_eq h)
  dsimp only [decode]
  split
  case h_8 heq => exact absurd heq h7
  all_goals rfl

/-- The step on a DEC of a length other than 12 raises FormatError, whatever the data bus holds
(`43_dns_header_decoder.md` R75). -/
theorem step_dec_of_ne (s : State) (rest : List HostEvent) {len : Word} (hlen : len ≠ 12) (din : Bus) :
    step { s with host := .command ⟨0x7#4 ++ len, din⟩ :: rest } = .next (raise .formatError { s with host := rest }) := by
  rw [step_of_command rfl, decode_dec]
  exact execDec_of_ne _ _ hlen

/-- Settles O10: equal decoded commands give equal steps, and a DEC of another length than 12 raises FormatError in any case. -/
theorem ignoredBitsChangeNothing : Obligations.IgnoredBitsChangeNothing := by
  unfold Obligations.IgnoredBitsChangeNothing
  refine ⟨fun s rest op arg arg' din din' h => step_congr_decode s rest ?_,
    fun s rest len din din' h => step_congr_decode s rest ?_, fun s rest len din din' hlen => ?_,
    BitVec.extractLsb'_append_eq_right, BitVec.extractLsb'_append_eq_right, BitVec.extractLsb'_append_eq_right, by decide⟩
  · rcases h with rfl | rfl | rfl | ⟨rfl, hbit⟩ | ⟨rfl, hop⟩
    · exact (decode_new arg din).trans (decode_new arg' din').symm
    · exact (decode_setid arg din).trans (decode_setid arg' din').symm
    · exact (decode_enc arg din).trans (decode_enc arg' din').symm
    · exact (decode_setqm arg din).trans ((congrArg Instr.setqm hbit).trans (decode_setqm arg' din').symm)
    · exact decode_congr_bus (by rwa [opField_append]) din din'
  · exact (decode_dec len din).trans ((congrArg (Instr.dec len) (presentedBytes_congr h)).trans (decode_dec len din').symm)
  · exact (step_dec_of_ne s rest hlen din).trans (step_dec_of_ne s rest hlen din').symm

end Sys2Proof.Machine
end

section
/-! PROOFS. The family 30_encoding: the flags word, packed by `FW` and unpacked by `UNFW` (`30_encoding.md` R38 to R42). -/

namespace Sys2Proof.Machine

/-! ### Packing -/

/-- `FW` reads no field but the five packed ones, and of OPCODE only the Opcode-nonzero-indicator (`30_encoding.md` R39,
R40 b). -/
theorem fw_congr {h h' : Hdr} (hqr : h.qr = h'.qr) (hop : opbit h.opcode = opbit h'.opcode) (hfl : h.flags = h'.flags)
    (hz : h.z = h'.z) (hrc : h.rcode = h'.rcode) : fw h = fw h' := by
  simp only [fw, hqr, hop, hfl, hz, hrc]

/-- `FW` as the or of its shifted parts (`30_encoding.md` R39). -/
theorem fw_eq_shifts (h : Hdr) : fw h = (h.qr.setWidth 16 <<< 15) ||| ((opbit h.opcode).setWidth 16 <<< 11) |||
    (h.flags.setWidth 16 <<< 7) ||| (h.z.setWidth 16 <<< 4) ||| h.rcode.setWidth 16 := by
  have expand := BitVec.setWidth_eq (fw h)
  unfold fw at expand ⊢
  simp only [BitVec.setWidth_append_eq_shiftLeft_setWidth_or, BitVec.shiftLeft_or_distrib, ← BitVec.shiftLeft_add] at expand
  simpa using expand.symm

/-- The Opcode-nonzero-indicator in any width. -/
theorem setWidth_opbit (o : BitVec 4) (n : Nat) : (opbit o).setWidth n = if o ≠ 0 then 1#n else 0#n := by
  apply BitVec.eq_of_toNat_eq
  unfold opbit
  split <;> simp

/-- The indicator is injective on the two Opcodes that one bit can hold (`30_encoding.md` R40 c). -/
theorem eq_of_opbit_eq {o o' : BitVec 4} (ho : o = 0 ∨ o = 1) (ho' : o' = 0 ∨ o' = 1) (h : opbit o = opbit o') : o = o' := by
  decide +revert

/-- The indicator of a one-bit Opcode is that bit. -/
@[simp] theorem opbit_setWidth (b : BitVec 1) : opbit (b.setWidth 4) = b := by decide +revert

/-- On headers whose Opcode is 0 or 1, `FW` determines the five packed fields (`30_encoding.md` R40 c). -/
theorem packed_eq_of_fw_eq {h h' : Hdr} (ho : h.opcode = 0 ∨ h.opcode = 1) (ho' : h'.opcode = 0 ∨ h'.opcode = 1)
    (heq : fw h = fw h') :
    h.qr = h'.qr ∧ h.opcode = h'.opcode ∧ h.flags = h'.flags ∧ h.z = h'.z ∧ h.rcode = h'.rcode := by
  have part (a n : Nat) : (fw h).extractLsb' a n = (fw h').extractLsb' a n := by rw [heq]
  refine ⟨by simpa using part 15 1, eq_of_opbit_eq ho ho' ?_, by simpa using part 7 4, by simpa using part 4 3,
    by simpa using part 0 4⟩
  simpa using part 11 1

/-- Bit 11 of the flags word of a nonzero Opcode is set (`30_encoding.md` R40 b). -/
theorem fw_getLsbD_11 {h : Hdr} (ho : h.opcode ≠ 0) : (fw h).getLsbD 11 = true := by
  rw [BitVec.getLsbD_eq_extractLsb', fw_opbit, opbit_of_ne ho]
  rfl

/-! ### Masks of the flags word -/

/-- A mask with ones over a part of a word keeps that part. -/
theorem extract_and_of_ones {m : Word} {a n : Nat} (w : Word) (hm : m.extractLsb' a n = BitVec.allOnes n) :
    (w &&& m).extractLsb' a n = w.extractLsb' a n := by
  rw [BitVec.extractLsb'_and, hm, BitVec.and_allOnes]

/-- A mask with zeros over a part of a word clears that part. -/
theorem extract_and_of_zeros {m : Word} {a n : Nat} (w : Word) (hm : m.extractLsb' a n = 0) :
    (w &&& m).extractLsb' a n = 0 := by
  rw [BitVec.extractLsb'_and, hm]
  exact BitVec.and_zero

/-- The mask 0x7000 tests bits 14 to 12. -/
theorem gap_eq_zero_iff (w : Word) : w.extractLsb' 12 3 = 0 ↔ w &&& 0x7000 = 0 := by
  constructor
  · intro hgap
    apply flagsWord_ext <;> simp [BitVec.extractLsb'_and, hgap]
  · intro hmask
    rw [← extract_and_of_ones (m := 0x7000) w rfl, hmask]
    rfl

/-- Words with equal bits 10 to 0 have equal parts there. -/
theorem extract_eq_of_low {v w : Word} {a n : Nat} (hlow : v.extractLsb' 0 11 = w.extractLsb' 0 11) (h : a + n ≤ 11) :
    v.extractLsb' a n = w.extractLsb' a n := by
  rw [← BitVec.extractLsb'_extractLsb'_of_le h, hlow, BitVec.extractLsb'_extractLsb'_of_le h]

/-! ### The image -/

/-- The thirteen bits that a flags word carries, spread around the cleared bits 14 to 12. -/
def spreadFlags (x : BitVec 13) : Word := x.extractLsb' 12 1 ++ 0#3 ++ x.extractLsb' 0 12

/-- The thirteen bits of a word outside bits 14 to 12. -/
def gatherFlags (w : Word) : BitVec 13 := w.extractLsb' 15 1 ++ w.extractLsb' 0 12

@[simp] theorem gatherFlags_spreadFlags (x : BitVec 13) : gatherFlags (spreadFlags x) = x := by
  unfold gatherFlags spreadFlags
  grind

theorem spreadFlags_injective : Function.Injective spreadFlags :=
  Function.LeftInverse.injective gatherFlags_spreadFlags

/-- The words with bits 14 to 12 clear are those that thirteen bits give (`30_encoding.md` R40 a). -/
theorem exists_spreadFlags_iff (w : Word) : (∃ x, spreadFlags x = w) ↔ w.extractLsb' 12 3 = 0 := by
  constructor
  · rintro ⟨x, rfl⟩
    unfold spreadFlags
    grind
  · intro (hgap : w.extractLsb' 12 3 = 0#3)
    refine ⟨gatherFlags w, ?_⟩
    unfold gatherFlags spreadFlags
    rw [BitVec.extractLsb'_append_eq_left, BitVec.extractLsb'_append_eq_right, ← hgap,
      BitVec.extractLsb'_append_extractLsb'_eq_extractLsb' (by rfl),
      BitVec.extractLsb'_append_extractLsb'_eq_extractLsb' (by rfl)]
    exact BitVec.extractLsb'_eq_self

/-! ### Unpacking -/

/-- The two Opcode modes agree exactly where bits 14 to 12 are 0 (`30_encoding.md` R41). -/
theorem unpackOpcode_agree_iff (w : Word) :
    unpackOpcode .field4 w = unpackOpcode .bit11 w ↔ w.extractLsb' 12 3 = 0 := by
  have split : w.extractLsb' 11 4 = w.extractLsb' 12 3 ++ w.extractLsb' 11 1 :=
    (BitVec.extractLsb'_append_extractLsb'_eq_extractLsb' (x := w) (start₁ := 11) (len₁ := 1) (len₂ := 3) rfl).symm
  have extend : (w.extractLsb' 11 1).setWidth 4 = 0#3 ++ w.extractLsb' 11 1 := BitVec.setWidth_eq_append (by decide)
  change w.extractLsb' 11 4 = (w.extractLsb' 11 1).setWidth 4 ↔ _
  rw [split, extend]
  exact BitVec.append_left_inj _

/-- The whole results of `UNFW` in the two modes agree exactly where bits 14 to 12 are 0 (`30_encoding.md` R41). -/
theorem unfw_agree_iff (w : Word) : unfw .field4 w = unfw .bit11 w ↔ w.extractLsb' 12 3 = 0 := by
  rw [← unpackOpcode_agree_iff]
  simp [unfw]

/-- Where bits 14 to 12 are 0, both modes read the Opcode as bit 11 (`30_encoding.md` R41). -/
theorem unpackOpcode_of_gap (mode : OpcodeMode) {w : Word} (hgap : w.extractLsb' 12 3 = 0) :
    unpackOpcode mode w = (w.extractLsb' 11 1).setWidth 4 := by
  cases mode with
  | field4 => exact (unpackOpcode_agree_iff w).mpr hgap
  | bit11 => rfl

/-- Unpacking a packed flags word, in either mode (`30_encoding.md` R42). -/
theorem unfw_fw (mode : OpcodeMode) (h : Hdr) : unfw mode (fw h) =
    { qr := h.qr, opcode := if h.opcode ≠ 0 then 1 else 0, flags := h.flags, z := h.z, rcode := h.rcode } := by
  simp only [unfw, unpackOpcode_of_gap mode (fw_gap h), fw_qr, fw_opbit, fw_flags, fw_z, fw_rcode, setWidth_opbit]
  rfl

/-! ### Packing again -/

/-- A header with its five packed fields replaced. -/
def putFields (h : Hdr) (u : FlagsFields) : Hdr :=
  { h with qr := u.qr, opcode := u.opcode, flags := u.flags, z := u.z, rcode := u.rcode }

/-- What `FW` gives after `UNFW` is known by its parts: bits 15 and 10 to 0 of the word, bits 14 to 12 clear, and in bit 11 the
indicator of the Opcode that was unpacked (`30_encoding.md` R42). -/
theorem fw_unfw_eq (mode : OpcodeMode) (h : Hdr) {w v : Word} (hqr : v.extractLsb' 15 1 = w.extractLsb' 15 1)
    (hgap : v.extractLsb' 12 3 = 0) (hop : v.extractLsb' 11 1 = opbit (unpackOpcode mode w))
    (hlow : v.extractLsb' 0 11 = w.extractLsb' 0 11) : fw (putFields h (unfw mode w)) = v := by
  apply flagsWord_ext
  · exact (fw_qr _).trans hqr.symm
  · exact (fw_gap _).trans hgap.symm
  · exact (fw_opbit _).trans hop.symm
  · exact (fw_flags _).trans (extract_eq_of_low hlow (by decide)).symm
  · exact (fw_z _).trans (extract_eq_of_low hlow (by decide)).symm
  · exact (fw_rcode _).trans (extract_eq_of_low hlow (by decide)).symm

/-- Packing after unpacking under FIELD4 (`30_encoding.md` R42). -/
theorem fw_unfw_field4 (h : Hdr) (w : Word) : fw (putFields h (unfw .field4 w)) =
    (w &&& 0x87FF#16) ||| ((if w.extractLsb' 11 4 ≠ 0 then 1#16 else 0#16) <<< 11) := by
  rw [← setWidth_opbit]
  apply fw_unfw_eq <;> rw [BitVec.extractLsb'_or]
  · rw [extract_and_of_ones w rfl]
    grind
  · rw [extract_and_of_zeros w rfl]
    grind
  · change _ = opbit (w.extractLsb' 11 4)
    rw [extract_and_of_zeros w rfl]
    grind
  · rw [extract_and_of_ones w rfl]
    grind

/-- Packing after unpacking under BIT11, where bit 11 is its own indicator (`30_encoding.md` R42). -/
theorem fw_unfw_bit11 (h : Hdr) (w : Word) : fw (putFields h (unfw .bit11 w)) = w &&& 0x8FFF#16 := by
  apply fw_unfw_eq
  · exact extract_and_of_ones w rfl
  · exact extract_and_of_zeros w rfl
  · exact (extract_and_of_ones w rfl).trans (opbit_setWidth _).symm
  · exact extract_and_of_ones w rfl

/-- Packing what `UNFW` gives returns the word itself exactly where bits 14 to 12 are 0 (`30_encoding.md` R42). -/
theorem fw_unfw_eq_self_iff (mode : OpcodeMode) (h : Hdr) (w : Word) :
    fw (putFields h (unfw mode w)) = w ↔ w.extractLsb' 12 3 = 0 := by
  constructor
  · intro heq
    rw [← heq]
    exact fw_gap _
  · intro hgap
    have hop : w.extractLsb' 11 1 = opbit (unpackOpcode mode w) := by
      rw [unpackOpcode_of_gap mode hgap, opbit_setWidth]
    exact fw_unfw_eq mode h rfl hgap hop rfl

/-- The image of `FW` is the words with bits 14 to 12 clear (`30_encoding.md` R40 a). -/
theorem exists_fw_iff (w : Word) : (∃ h, fw h = w) ↔ w.extractLsb' 12 3 = 0 := by
  constructor
  · rintro ⟨h, rfl⟩
    exact fw_gap h
  · intro hgap
    exact ⟨putFields zeroHdr (unfw .field4 w), (fw_unfw_eq_self_iff .field4 zeroHdr w).mpr hgap⟩

/-! ### The obligations -/

/-- Settles O12: the concatenation is the definition, the shifts are `fw_eq_shifts`, the clear bits `fw_gap`. -/
theorem flagsWordPacking : Obligations.FlagsWordPacking := by
  unfold Obligations.FlagsWordPacking
  intro h
  refine ⟨rfl, ?_, fw_gap h⟩
  rw [← setWidth_opbit]
  exact fw_eq_shifts h

/-- Settles O14: the parts are the definition; the modes agree exactly where the gap is 0, and a packed word has it 0. -/
theorem flagsWordUnpacking : Obligations.FlagsWordUnpacking := by
  unfold Obligations.FlagsWordUnpacking
  exact ⟨fun _ _ => ⟨rfl, rfl, rfl, rfl⟩, fun _ => ⟨rfl, rfl⟩, unfw_agree_iff, fun h => (unfw_agree_iff _).mpr (fw_gap h), rfl⟩

/-- Settles O15: `unfw_fw` one way, and the other way the word that `FW` gives after `UNFW` in each mode. -/
theorem flagsWordRoundTrips : Obligations.FlagsWordRoundTrips := by
  unfold Obligations.FlagsWordRoundTrips
  refine ⟨unfw_fw, fun mode h w => ⟨?_, ?_, fw_unfw_eq_self_iff mode h w⟩⟩
  · rintro rfl
    exact fw_unfw_field4 h w
  · rintro rfl
    exact fw_unfw_bit11 h w

/-- Settles O13: the image by `exists_fw_iff` and `exists_spreadFlags_iff`, the Opcode by `fw_congr`, injectivity by
reading the parts back. -/
theorem flagsWordImageAndInjectivity : Obligations.FlagsWordImageAndInjectivity := by
  unfold Obligations.FlagsWordImageAndInjectivity
  refine ⟨fun h => ⟨fw_gap h, (gap_eq_zero_iff _).mp (fw_gap h)⟩, ⟨spreadFlags, spreadFlags_injective, fun w => ?_⟩,
    fun h o o' ho ho' => ⟨fw_congr rfl ?_ rfl rfl rfl, fw_getLsbD_11 ho⟩, fun _ _ => packed_eq_of_fw_eq,
    ⟨{ zeroHdr with opcode := 1 }, { zeroHdr with opcode := 2 }, by decide, by decide⟩,
    fun h hqr hop hfl hz hrc => ?_⟩
  · rw [← gap_eq_zero_iff, exists_spreadFlags_iff]
    exact ⟨exists_fw_iff w, Iff.rfl⟩
  · exact (opbit_of_ne ho).trans (opbit_of_ne ho').symm
  · have example_word : fw { zeroHdr with flags := 2 } = 0x0100 := by decide
    exact (fw_congr hqr (congrArg opbit hop) hfl hz hrc).trans example_word

end Sys2Proof.Machine
end

section
/-! PROOFS. The family 30_encoding: every command as the transition of `00_scope.md` R14, and its response
(`30_encoding.md` R50, R53; `60_exceptions.md` R81). -/

namespace Sys2Proof.Machine

/-! ### The data of a response: the bytes of ENC and the header of DEC -/

/-- Two neighbouring bytes of a bus are the 16 bits from the lower one's place (`20_memory.md` R26, R30). -/
theorem busByte_append_busByte (v : Bus) {k : Nat} (hk : k < 11) :
    (busByte v k ++ busByte v (k + 1) : Word) = v.extractLsb' (80 - 8 * k) 16 := by
  unfold busByte
  rw [show 88 - 8 * (k + 1) = 80 - 8 * k by omega]
  exact BitVec.extractLsb'_append_extractLsb'_eq_extractLsb' (len₁ := 8) (len₂ := 8) (by omega)

/-- A part of a part of a bus is a part of the bus. -/
theorem extract_extract (v : Bus) {n b m : Nat} (a : Nat) (h : b + m ≤ n) :
    (v.extractLsb' a n).extractLsb' b m = v.extractLsb' (a + b) m := by
  ext i hi
  have hbi : b + i < n := by omega
  simp [hbi, Nat.add_assoc]

/-- The ten fields of a bus by its bytes: the flags word is bytes 2 and 3, unpacked under FIELD4
(`43_dns_header_decoder.md` R72). -/
theorem cutBits_eq (v : Bus) :
    let u := unfw .field4 (busByte v 2 ++ busByte v 3)
    cutBits v = { id := busByte v 0 ++ busByte v 1, qr := u.qr, opcode := u.opcode, flags := u.flags, z := u.z,
                  rcode := u.rcode, qdcount := busByte v 4 ++ busByte v 5, ancount := busByte v 6 ++ busByte v 7,
                  nscount := busByte v 8 ++ busByte v 9, arcount := busByte v 10 ++ busByte v 11 } := by
  have word (k : Nat) (hk : k < 11) := busByte_append_busByte v hk
  rw [word 0 (by decide), word 2 (by decide), word 4 (by decide), word 6 (by decide), word 8 (by decide), word 10 (by decide)]
  have part (b m : Nat) (h : b + m ≤ 16) : (v.extractLsb' 64 16).extractLsb' b m = v.extractLsb' (64 + b) m :=
    extract_extract v 64 h
  simp only [cutBits, unfw, unpackOpcode, part 15 1 (by decide), part 11 4 (by decide), part 7 4 (by decide),
    part 4 3 (by decide), part 0 4 (by decide)]

/-- DEC of twelve bytes off the data bus answers the fields of the bus (`43_dns_header_decoder.md` R73). -/
theorem execDec_presentedBytes (din : Bus) (s : State) :
    execDec 12 (presentedBytes 12 din) s = .next (deliver (headerRsp (cutBits din)) s) := by
  rw [cutBits_eq]
  exact execDec_twelve _ _ _ _ _ _ _ _ _ _ _ _ s

/-- The encoded bytes on the bus are the six wire words side by side (`42_dns_header_encoder.md` R67). -/
theorem busOfBytes_encHdr (h : Hdr) : busOfBytes (encHdr h) = encBits h := by
  have bytes : busOfBytes (encHdr h) = hiByte h.id ++ loByte h.id ++ hiByte (fw h) ++ loByte (fw h) ++
      hiByte h.qdcount ++ loByte h.qdcount ++ hiByte h.ancount ++ loByte h.ancount ++ hiByte h.nscount ++
      loByte h.nscount ++ hiByte h.arcount ++ loByte h.arcount := rfl
  rw [bytes, hiByte_append_loByte, append_hiByte_loByte, append_hiByte_loByte, append_hiByte_loByte,
    append_hiByte_loByte, append_hiByte_loByte]
  rfl

/-! ### Reserved operation numbers -/

/-- The operation numbers: the eight commands and the reserved ones. -/
theorem op_cases (op : BitVec 4) : op = 0x0#4 ∨ op = 0x1#4 ∨ op = 0x2#4 ∨ op = 0x3#4 ∨ op = 0x4#4 ∨ op = 0x5#4 ∨
    op = 0x6#4 ∨ op = 0x7#4 ∨ 8 ≤ op.toNat := by
  decide +revert

/-- A reserved operation number is none of the eight defined ones. -/
theorem ne_of_reserved {op k : BitVec 4} (hop : 8 ≤ op.toNat) (hk : k.toNat < 8) : op ≠ k := by
  rintro rfl
  exact absurd hop (Nat.not_le.mpr hk)

/-- A command with a reserved operation number raises IllegalCommand (`30_encoding.md` R50). -/
theorem exec_decode_reserved {c : Cmd} (hop : 8 ≤ (opField c.word).toNat) (s : State) :
    exec (decode c) s = .next (raise .illegalCommand s) := by
  unfold decode
  split
  case h_9 | h_10 | h_11 | h_12 | h_13 | h_14 | h_15 | h_16 => rfl
  all_goals omega

/-! ### The response that carries a status alone -/

@[simp] theorem statusRsp_status (v : BitVec 2) : (statusRsp v).status = v := rfl
@[simp] theorem statusRsp_encBytes (v : BitVec 2) : (statusRsp v).encBytes = 0 := rfl
@[simp] theorem statusRsp_decHdr (v : BitVec 2) : (statusRsp v).decHdr = zeroHdr := rfl

/-! ### The transition of R14 on each operation number, in the terms the meanings use -/

theorem extract_op (op : BitVec 4) (arg : Word) : BitVec.extractLsb' 16 4 (op ++ arg : CmdWord) = op := opField_append op arg

theorem extract_arg (op : BitVec 4) (arg : Word) : BitVec.extractLsb' 0 16 (op ++ arg : CmdWord) = arg := argField_append op arg

theorem isSetid_append (op : BitVec 4) (arg : Word) (din : Bus) : isSetid (.command ⟨op ++ arg, din⟩) = (op == 1) := by
  rw [isSetid, extract_op]

section
variable (h : Hdr) (arg : Word) (din : Bus) (d : Draw)

theorem transact_new : transact h ⟨0x0#4 ++ arg, din⟩ d = (newHdr, statusRsp 0) := by
  simp only [transact, extract_op]
  rfl

theorem transact_setid_success (b0 b1 : Byte) :
    transact h ⟨0x1#4 ++ arg, din⟩ (.success b0 b1) = ({ h with id := b0 ++ b1 }, statusRsp 0) := by
  simp only [transact, extract_op]
  rfl

theorem transact_setid_failure : transact h ⟨0x1#4 ++ arg, din⟩ .failure = (h, statusRsp 1) := by
  simp only [transact, extract_op]
  rfl

theorem transact_setqm :
    transact h ⟨0x2#4 ++ arg, din⟩ d = (setQueryMode Config.respModePolicy (arg.getLsbD 0) h, statusRsp 0) := by
  simp only [transact, extract_op, extract_arg]
  cases arg.getLsbD 0 <;> rfl

theorem transact_setqd : transact h ⟨0x3#4 ++ arg, din⟩ d = ({ h with qdcount := arg }, statusRsp 0) := by
  simp only [transact, extract_op, extract_arg]
  rfl

theorem transact_setns : transact h ⟨0x4#4 ++ arg, din⟩ d = ({ h with nscount := arg }, statusRsp 0) := by
  simp only [transact, extract_op, extract_arg]
  rfl

theorem transact_setar : transact h ⟨0x5#4 ++ arg, din⟩ d = ({ h with arcount := arg }, statusRsp 0) := by
  simp only [transact, extract_op, extract_arg]
  rfl

theorem transact_enc : transact h ⟨0x6#4 ++ arg, din⟩ d = (h, bytesRsp (encBits h)) := by
  simp only [transact, extract_op]
  rfl

theorem transact_dec_twelve : transact h ⟨0x7#4 ++ 12#16, din⟩ d = (h, headerRsp (cutBits din)) := by
  simp only [transact, extract_op, extract_arg]
  rfl

theorem transact_dec_of_ne {len : Word} (hlen : len ≠ 12) : transact h ⟨0x7#4 ++ len, din⟩ d = (h, statusRsp 2) := by
  simp only [transact, extract_op, extract_arg]
  exact if_neg hlen

theorem transact_reserved {op : BitVec 4} (hop : 8 ≤ op.toNat) : transact h ⟨op ++ arg, din⟩ d = (h, statusRsp 3) := by
  have ne (k : BitVec 4) (hk : k.toNat < 8) : op ≠ k := ne_of_reserved hop hk
  simp only [transact, extract_op, ne 0 (by decide), ne 1 (by decide), ne 2 (by decide), ne 3 (by decide),
    ne 4 (by decide), ne 5 (by decide), ne 6 (by decide), ne 7 (by decide), if_false]

end

/-! ### Executing a command is taking the transition -/

/-- The state after a command, by the transition of R14 and the rule that SETID alone takes an answer of the provider. -/
def afterCommand (c : Cmd) (s : State) : State :=
  { hdr := (transact s.hdr c (nextDraw s)).1
    host := s.host
    draws := if isSetid (.command c) then s.draws.tail else s.draws
    requests := if isSetid (.command c) then s.requests + 1 else s.requests
    rsps := s.rsps ++ [(transact s.hdr c (nextDraw s)).2] }

theorem afterCommand_of_setid {c : Cmd} {s : State} {h : Hdr} {r : Rsp} (hid : isSetid (.command c) = true)
    (ht : transact s.hdr c (nextDraw s) = (h, r)) : afterCommand c s = deliver r (setHdr h (afterFill s)) := by
  simp only [afterCommand, hid, ht]
  rfl

theorem afterCommand_of_not_setid {c : Cmd} {s : State} {h : Hdr} {r : Rsp} (hid : isSetid (.command c) = false)
    (ht : transact s.hdr c (nextDraw s) = (h, r)) : afterCommand c s = deliver r (setHdr h s) := by
  simp only [afterCommand, hid, ht]
  rfl

/-- Executing a decoded command is the transition of R14 (`00_scope.md` R14). -/
theorem exec_decode (c : Cmd) (s : State) : exec (decode c) s = .next (afterCommand c s) := by
  obtain ⟨w, din⟩ := c
  obtain ⟨op, arg, rfl⟩ := exists_cmdWord_fields w
  have hid := isSetid_append op arg din
  rcases op_cases op with rfl | rfl | rfl | rfl | rfl | rfl | rfl | rfl | hop
  · rw [decode_new, afterCommand_of_not_setid hid (transact_new ..)]
    rfl
  · rw [decode_setid]
    change execSetid s = _
    cases hd : nextDraw s with
    | success b0 b1 =>
      rw [execSetid_success hd, afterCommand_of_setid hid ((congrArg _ hd).trans (transact_setid_success ..))]
      rfl
    | failure =>
      rw [execSetid_failure hd, afterCommand_of_setid hid ((congrArg _ hd).trans (transact_setid_failure ..))]
      rfl
  · rw [decode_setqm, afterCommand_of_not_setid hid (transact_setqm ..)]
    rfl
  · rw [decode_setqd, afterCommand_of_not_setid hid (transact_setqd ..)]
    rfl
  · rw [decode_setns, afterCommand_of_not_setid hid (transact_setns ..)]
    rfl
  · rw [decode_setar, afterCommand_of_not_setid hid (transact_setar ..)]
    rfl
  · rw [decode_enc, afterCommand_of_not_setid hid (transact_enc ..), ← busOfBytes_encHdr]
    rfl
  · rw [decode_dec]
    by_cases hlen : arg = 12#16
    · subst hlen
      rw [afterCommand_of_not_setid hid (transact_dec_twelve ..)]
      exact execDec_presentedBytes din s
    · rw [afterCommand_of_not_setid hid (transact_dec_of_ne _ _ _ hlen)]
      exact execDec_of_ne _ _ hlen
  · have hne : (op == 1) = false := beq_eq_false_iff_ne.mpr (ne_of_reserved hop (by decide))
    rw [exec_decode_reserved (by rwa [opField_append]), afterCommand_of_not_setid (hid.trans hne) (transact_reserved _ _ _ _ hop)]
    rfl

/-- The step on a command is the transition of R14 (`00_scope.md` R14). -/
theorem step_command (s : State) (rest : List HostEvent) (c : Cmd) :
    step { s with host := .command c :: rest } = .next (afterCommand c { s with host := rest }) := by
  rw [step_of_command rfl]
  exact exec_decode c _

/-- The response of every command, read off the bits of the command (`30_encoding.md` R53). -/
theorem transact_rsp (h : Hdr) (c : Cmd) (d : Draw) :
    let r := (transact h c d).2
    (r.status = 1 ↔ c.word.extractLsb' 16 4 = 1 ∧ d = .failure) ∧
    (r.status = 2 ↔ c.word.extractLsb' 16 4 = 7 ∧ c.word.extractLsb' 0 16 ≠ 12) ∧
    (r.status = 3 ↔ 8 ≤ (c.word.extractLsb' 16 4).toNat) ∧
    r.encBytes = (if c.word.extractLsb' 16 4 = 6 then encBits h else 0) ∧
    r.decHdr = (if c.word.extractLsb' 16 4 = 7 ∧ c.word.extractLsb' 0 16 = 12 then cutBits c.din else zeroHdr) := by
  obtain ⟨w, din⟩ := c
  obtain ⟨op, arg, rfl⟩ := exists_cmdWord_fields w
  simp only [extract_op, extract_arg]
  rcases op_cases op with rfl | rfl | rfl | rfl | rfl | rfl | rfl | rfl | hop
  · simp [transact_new]
  · cases d with
    | success b0 b1 => simp [transact_setid_success]
    | failure => simp [transact_setid_failure]
  · simp [transact_setqm]
  · simp [transact_setqd]
  · simp [transact_setns]
  · simp [transact_setar]
  · simp [transact_enc, bytesRsp, Config.statusOk]
  · by_cases hlen : arg = 12#16
    · subst hlen
      rw [transact_dec_twelve]
      simp [headerRsp, Config.statusOk]
    · simp [transact_dec_of_ne _ _ _ hlen, hlen]
  · rw [transact_reserved _ _ _ _ hop]
    have ne (k : BitVec 4) (hk : k.toNat < 8) : op ≠ k := ne_of_reserved hop hk
    simp [ne 1#4 (by decide), ne 6#4 (by decide), ne 7#4 (by decide), hop]

/-! ### The obligations -/

/-- Settles O47: every step is the transition of R14, whose response `transact_rsp` gives. -/
theorem statusOfEveryCommand : Obligations.StatusOfEveryCommand := by
  unfold Obligations.StatusOfEveryCommand
  intro s rest c
  exact ⟨afterCommand c { s with host := rest }, (transact s.hdr c (nextDraw s)).2, step_command s rest c, rfl,
    transact_rsp s.hdr c (nextDraw s)⟩

/-- Settles O46: each reserved instruction by evaluation, each reserved word by `exec_decode_reserved`, and the words below by
the status of `transact_rsp`. -/
theorem reservedOpsRaiseIllegalCommand : Obligations.ReservedOpsRaiseIllegalCommand := by
  unfold Obligations.ReservedOpsRaiseIllegalCommand
  refine ⟨fun s i hi => ?_, fun s rest c hop => ?_, fun s rest c hop => ?_⟩
  · simp only [List.mem_cons, List.not_mem_nil, or_false] at hi
    rcases hi with rfl | rfl | rfl | rfl | rfl | rfl | rfl | rfl <;> rfl
  · rw [step_of_command rfl]
    exact exec_decode_reserved hop _
  · obtain ⟨_, _, hthree, _⟩ := transact_rsp s.hdr c (nextDraw s)
    exact ⟨afterCommand c { s with host := rest }, (transact s.hdr c (nextDraw s)).2, step_command s rest c, rfl,
      mt hthree.mp (Nat.not_le.mpr hop)⟩

end Sys2Proof.Machine
end

section
/-! PROOFS. The family 40_csprng_id_injector: SETID on each answer of the provider
(`40_csprng_id_injector.md` R55, R57, R58). -/

namespace Sys2Proof.Machine

/-! ### Chained commands and the provider's next answer -/

/-- After a command that answers a next state, the chain goes on from that state. -/
@[simp] theorem andThen_next (t : State) (k : State → Host.Outcome State Fault Refusal) : andThen (.next t) k = k t := rfl

/-- The first answer the state fixes is the one the next request gets (`40_csprng_id_injector.md` R56). -/
theorem nextDraw_of_draws {s : State} {d : Draw} {ds : List Draw} (h : s.draws = d :: ds) : nextDraw s = d := by
  rw [nextDraw, h]

/-! ### The whole next state of SETID -/

/-- SETID where the provider succeeds: only ID is written, and the response has status 0 (`40_csprng_id_injector.md` R55). -/
theorem exec_setid_success {s : State} {b0 b1 : Byte} (h : nextDraw s = .success b0 b1) :
    exec .setid s = .next { s with
      hdr := { s.hdr with id := b0 ++ b1 }
      draws := s.draws.tail
      requests := s.requests + 1
      rsps := s.rsps ++ [statusRsp 0] } := execSetid_success h

/-- SETID where the provider fails: `H` is kept, and the response has status 1 (`40_csprng_id_injector.md` R57). -/
theorem exec_setid_failure {s : State} (h : nextDraw s = .failure) :
    exec .setid s = .next { s with
      draws := s.draws.tail
      requests := s.requests + 1
      rsps := s.rsps ++ [statusRsp 1] } := execSetid_failure h

/-- SETID after a failed SETID takes the next answer, and that answer may succeed (`40_csprng_id_injector.md` R57). -/
theorem exec_setid_failure_then_success {s : State} {b0 b1 : Byte} {ds : List Draw}
    (h : s.draws = .failure :: .success b0 b1 :: ds) :
    andThen (exec .setid s) (exec .setid) = .next { s with
      hdr := { s.hdr with id := b0 ++ b1 }
      draws := ds
      requests := s.requests + 2
      rsps := s.rsps ++ [statusRsp 1, statusRsp 0] } := by
  have first : nextDraw s = .failure := nextDraw_of_draws h
  have htail : s.draws.tail = .success b0 b1 :: ds := by rw [h, List.tail_cons]
  rw [exec_setid_failure first, andThen_next, exec_setid_success (nextDraw_of_draws htail)]
  simp [htail]

/-! ### The obligations -/

/-- Settles O29: the decoding of operation number 1, and the next state of SETID on each answer. -/
theorem setidResult : Obligations.SetidResult := by
  unfold Obligations.SetidResult
  exact ⟨decode_setid, fun _ _ _ => exec_setid_success, fun _ => exec_setid_failure⟩

/-- Settles O30: `exec_setid_failure` for the one SETID, `exec_setid_failure_then_success` for the two. -/
theorem setidFailure : Obligations.SetidFailure := by
  unfold Obligations.SetidFailure
  exact ⟨fun _ hd => ⟨_, exec_setid_failure hd, rfl, rfl, rfl⟩, fun _ _ _ _ => exec_setid_failure_then_success⟩

/-- Settles O32: the two bytes drawn are those of the value, so together they are the value. -/
theorem everyDrawnIdIsAccepted : Obligations.EveryDrawnIdIsAccepted := by
  unfold Obligations.EveryDrawnIdIsAccepted
  intro s v ds
  have bytes : v.extractLsb' 8 8 ++ v.extractLsb' 0 8 = v := hiByte_append_loByte v
  rw [exec_setid_success (nextDraw_of_draws rfl), bytes]
  rfl

end Sys2Proof.Machine
end

section
/-! PROOFS. The family 41_header_setters: NEW, SETQM, SETQD, SETNS and SETAR (`41_header_setters.md` R60 to R65). -/

namespace Sys2Proof.Machine

/-! ### SETQM as a function of the header -/

/-- Query framing writes seven fields under either policy (`41_header_setters.md` R61, R62). -/
theorem setQueryMode_true (policy : RespModePolicy) (h : Hdr) : setQueryMode policy true h =
    { h with qr := 0, opcode := 0, flags := 2, z := 0, rcode := 0, nscount := 0, arcount := 0 } := queryFraming_eq h

theorem setQueryMode_hold_false (h : Hdr) : setQueryMode .hold false h = { h with qr := 1, opcode := 1 } :=
  responseFraming_hold_eq h

theorem setQueryMode_clear_false (h : Hdr) : setQueryMode .clear false h =
    { h with qr := 1, opcode := 1, flags := 0, z := 0, rcode := 0 } := responseFraming_clear_eq h

/-- SETQM neither reads nor writes QDCOUNT (`41_header_setters.md` R62, R63). -/
theorem setQueryMode_qdcount (policy : RespModePolicy) (q : Bool) (h : Hdr) (n : Word) :
    setQueryMode policy q { h with qdcount := n } = { setQueryMode policy q h with qdcount := n } := by
  cases q with
  | true => rfl
  | false => cases policy <;> rfl

@[simp] theorem nscount_setQueryMode (policy : RespModePolicy) (q : Bool) (h : Hdr) :
    (setQueryMode policy q h).nscount = if q then 0 else h.nscount := by
  cases q with
  | true => rfl
  | false => cases policy <;> rfl

@[simp] theorem arcount_setQueryMode (policy : RespModePolicy) (q : Bool) (h : Hdr) :
    (setQueryMode policy q h).arcount = if q then 0 else h.arcount := by
  cases q with
  | true => rfl
  | false => cases policy <;> rfl

/-! ### The flags words of SETQM

Each framing below fixes all five packed fields, so its flags word is that of one closed header. -/

theorem fw_queryFramed (policy : RespModePolicy) (h : Hdr) : fw (setQueryMode policy true h) = 0x0100 := by
  have word : fw { zeroHdr with flags := 2 } = 0x0100 := by decide
  rw [setQueryMode_true, ← word]
  exact fw_congr rfl rfl rfl rfl rfl

/-- Under HOLD the response framing keeps the RD bit that query framing set (`41_header_setters.md` R61). -/
theorem fw_responseFramed_hold (policy : RespModePolicy) (h : Hdr) :
    fw (setQueryMode .hold false (setQueryMode policy true h)) = 0x8900 := by
  have word : fw { zeroHdr with qr := 1, opcode := 1, flags := 2 } = 0x8900 := by decide
  rw [setQueryMode_hold_false, setQueryMode_true, ← word]
  exact fw_congr rfl rfl rfl rfl rfl

/-- Under CLEAR the response framing does not depend on the header it starts from (`41_header_setters.md` R62). -/
theorem fw_responseFramed_clear (h : Hdr) : fw (setQueryMode .clear false h) = 0x8800 := by
  have word : fw { zeroHdr with qr := 1, opcode := 1 } = 0x8800 := by decide
  rw [setQueryMode_clear_false, ← word]
  exact fw_congr rfl rfl rfl rfl rfl

/-! ### The bytes of the counts that SETQD, SETNS and SETAR write

Each count's high byte comes first, at the lower offset (`42_dns_header_encoder.md` R67). -/

section
variable {h : Hdr} {hi lo : Byte}

theorem encHdr_qdcount (hc : h.qdcount = hi ++ lo) : (encHdr h)[4]? = some hi ∧ (encHdr h)[5]? = some lo := by
  simp [encHdr, hc]

theorem encHdr_nscount (hc : h.nscount = hi ++ lo) : (encHdr h)[8]? = some hi ∧ (encHdr h)[9]? = some lo := by
  simp [encHdr, hc]

theorem encHdr_arcount (hc : h.arcount = hi ++ lo) : (encHdr h)[10]? = some hi ∧ (encHdr h)[11]? = some lo := by
  simp [encHdr, hc]

end

/-! ### The whole next state of each setter -/

section
variable (n : Word) (s : State)

theorem exec_setqm (q : Bool) : exec (.setqm q) s = .next { s with
    hdr := setQueryMode Config.respModePolicy q s.hdr
    rsps := s.rsps ++ [statusRsp 0] } := rfl

theorem exec_setqd : exec (.setqd n) s = .next { s with
    hdr := { s.hdr with qdcount := n }
    rsps := s.rsps ++ [statusRsp 0] } := rfl

theorem exec_setns : exec (.setns n) s = .next { s with
    hdr := { s.hdr with nscount := n }
    rsps := s.rsps ++ [statusRsp 0] } := rfl

theorem exec_setar : exec (.setar n) s = .next { s with
    hdr := { s.hdr with arcount := n }
    rsps := s.rsps ++ [statusRsp 0] } := rfl

end

/-- ENC after NEW answers twelve zero bytes (`41_header_setters.md` R60). -/
theorem exec_new_then_enc (s : State) : andThen (exec .new s) (exec .enc) = .next { s with
    hdr := Config.resetH
    rsps := s.rsps ++ [statusRsp 0, bytesRsp 0] } := by
  rw [exec_new, andThen_next, exec_enc, encHdr_resetH, busOfBytes_replicate_zero, List.append_assoc]
  rfl

/-! ### The obligations -/

/-- Settles O21: the decoding of operation number 0, the next state of NEW, and that of ENC after it. -/
theorem newResult : Obligations.NewResult := by
  unfold Obligations.NewResult
  exact ⟨decode_new, exec_new, exec_new_then_enc⟩

/-- Settles O22: the next state of SETQM with each framing written out, and the flags words of the two framings. -/
theorem setqmResult : Obligations.SetqmResult := by
  unfold Obligations.SetqmResult
  refine ⟨decode_setqm, fun s => ?_, fun s => ?_, fw_queryFramed _, fw_responseFramed_hold _⟩
  · rw [exec_setqm, setQueryMode_true]
  · rw [exec_setqm, Config.respModePolicy, setQueryMode_hold_false]

/-- Settles O23: the writes of each framing under each policy, and the flags words they end with. -/
theorem responseModePolicies : Obligations.ResponseModePolicies := by
  unfold Obligations.ResponseModePolicies
  exact ⟨setQueryMode_hold_false, setQueryMode_clear_false, setQueryMode_true, fw_responseFramed_hold .hold,
    fun h => fw_responseFramed_clear (setQueryMode .clear true h), rfl⟩

/-- Settles O25: the next state of SETQD; the two orders with SETQM agree because SETQM commutes with a write of QDCOUNT. -/
theorem setqdResult : Obligations.SetqdResult := by
  unfold Obligations.SetqdResult
  refine ⟨decode_setqd, exec_setqd, fun n q s => ?_, fun h => ⟨_, rfl, encHdr_qdcount rfl⟩⟩
  have commute := setQueryMode_qdcount Config.respModePolicy q s.hdr n
  rw [exec_setqd, andThen_next, exec_setqm, commute, exec_setqm, andThen_next, exec_setqd]
  exact ⟨_, rfl, rfl, _, rfl, rfl⟩

/-- Settles O26: the next states of SETNS and SETAR, and what SETQM leaves in the two counts. -/
theorem setnsAndSetarResult : Obligations.SetnsAndSetarResult := by
  unfold Obligations.SetnsAndSetarResult
  refine ⟨fun n din => ⟨decode_setns n din, decode_setar n din⟩, exec_setns, exec_setar, fun n q s => ?_, fun h => ?_⟩
  · rw [exec_setns, exec_setar, andThen_next, andThen_next, exec_setqm, exec_setqm]
    exact ⟨_, _, rfl, nscount_setQueryMode .., rfl, arcount_setQueryMode ..⟩
  · obtain ⟨hns, hns'⟩ := encHdr_nscount (h := { h with nscount := 3, arcount := 0xFFFF }) (hi := 0x00) (lo := 0x03) rfl
    exact ⟨_, rfl, hns, hns', encHdr_arcount rfl⟩

end Sys2Proof.Machine
end

section
/-! PROOFS. The family 42_dns_header_encoder: the function `Enc` in its three forms, what it determines of a header, and the
command ENC (`42_dns_header_encoder.md` R67 to R71). -/

namespace Sys2Proof.Machine

/-! ### `Enc` by MemWrite -/

/-- The output buffer `W` with its first bytes written and the rest unwritten (`20_memory.md` R26). -/
def writtenW (bs : List Byte) : List (Option Byte) := bs.map some ++ List.replicate (Config.hdrBytes - bs.length) none

theorem blankW_eq_writtenW : blankW = writtenW [] := rfl

/-- A full buffer has no byte unwritten. -/
theorem writtenW_of_length {bs : List Byte} (hbs : bs.length = 12) : writtenW bs = bs.map some := by
  simp [writtenW, Config.hdrBytes, hbs]

/-- A word written right after the bytes already written extends them by its two halves, the high one first
(`20_memory.md` R29, R30). -/
theorem memWrite2_writtenW {bs : List Byte} {off : Nat} (hoff : bs.length = off) (hlen : off + 2 ≤ 12) (v : Word) :
    memWrite2 (writtenW bs) off v = some (writtenW (bs ++ [hiByte v, loByte v])) := by
  obtain ⟨n, hn⟩ := Nat.exists_eq_add_of_le' hlen
  have room : 12 - off = n + 2 := by omega
  have left : 12 - (off + 2) = n := by omega
  subst hoff
  simp [memWrite2, writtenW, Config.hdrBytes, hlen, room, left, List.replicate_succ]

/-- The six MemWrites of R67 write the bytes of `Enc` and leave none unwritten. -/
theorem encByMemWrite_eq (h : Hdr) : encByMemWrite h = some ((encHdr h).map some) := by
  rw [← writtenW_of_length (encHdr_length h)]
  simp [encByMemWrite, blankW_eq_writtenW, memWrite2_writtenW, encHdr]

/-! ### What `Enc` determines of a header -/

/-- Bits 6 to 4 of byte 2 are bits 14 to 12 of the flags word, which are clear (`42_dns_header_encoder.md` R69 d). -/
theorem hiByte_fw_gap (h : Hdr) : (hiByte (fw h)).extractLsb' 4 3 = 0 := by
  have bits : (hiByte (fw h)).extractLsb' 4 3 = (fw h).extractLsb' 12 3 := by
    unfold hiByte
    grind
  rw [bits, fw_gap]

/-- `Enc` reads the packed fields through the flags word alone. -/
theorem encHdr_congr_fw {h h' : Hdr} (hid : h.id = h'.id) (hfw : fw h = fw h') (hqd : h.qdcount = h'.qdcount)
    (han : h.ancount = h'.ancount) (hns : h.nscount = h'.nscount) (har : h.arcount = h'.arcount) :
    encHdr h = encHdr h' := by
  simp only [encHdr, hid, hfw, hqd, han, hns, har]

/-- `Enc` does not tell nonzero Opcodes apart (`42_dns_header_encoder.md` R69 e, R70). -/
theorem encHdr_opcode_of_ne (h : Hdr) {o o' : BitVec 4} (ho : o ≠ 0) (ho' : o' ≠ 0) :
    encHdr { h with opcode := o } = encHdr { h with opcode := o' } := by
  have indicator : opbit o = opbit o' := (opbit_of_ne ho).trans (opbit_of_ne ho').symm
  exact encHdr_congr_fw rfl (fw_congr rfl indicator rfl rfl rfl) rfl rfl rfl rfl

/-- The twelve bytes determine the six wire words. -/
theorem words_eq_of_encHdr_eq {h h' : Hdr} (heq : encHdr h = encHdr h') :
    h.id = h'.id ∧ fw h = fw h' ∧ h.qdcount = h'.qdcount ∧ h.ancount = h'.ancount ∧ h.nscount = h'.nscount ∧
      h.arcount = h'.arcount := by
  simp only [encHdr, List.cons.injEq, and_true] at heq
  obtain ⟨id1, id0, fw1, fw0, qd1, qd0, an1, an0, ns1, ns0, ar1, ar0⟩ := heq
  exact ⟨word_ext id1 id0, word_ext fw1 fw0, word_ext qd1 qd0, word_ext an1 an0, word_ext ns1 ns0, word_ext ar1 ar0⟩

/-- On headers whose Opcode is 0 or 1, `Enc` is injective (`42_dns_header_encoder.md` R69 e). -/
theorem eq_of_encHdr_eq {h h' : Hdr} (ho : h.opcode = 0 ∨ h.opcode = 1) (ho' : h'.opcode = 0 ∨ h'.opcode = 1)
    (heq : encHdr h = encHdr h') : h = h' := by
  obtain ⟨hid, hfw, hqd, han, hns, har⟩ := words_eq_of_encHdr_eq heq
  obtain ⟨hqr, hop, hfl, hz, hrc⟩ := packed_eq_of_fw_eq ho ho' hfw
  exact hdr_ext fun
    | .id => hid
    | .qr => hqr
    | .opcode => hop
    | .flags => hfl
    | .z => hz
    | .rcode => hrc
    | .qdcount => hqd
    | .ancount => han
    | .nscount => hns
    | .arcount => har

/-! ### ENC -/

/-- ENC on any state, its data as the six wire words side by side (`42_dns_header_encoder.md` R67, R68). -/
theorem exec_enc_bits (s : State) :
    exec .enc s = .next { s with rsps := s.rsps ++ [bytesRsp (encBits s.hdr)] } := by
  rw [exec_enc, busOfBytes_encHdr]

/-- ENC after query framing of the reset header, the source's example (`42_dns_header_encoder.md` R68). -/
theorem exec_setqm_true_then_enc_resetH (s : State) :
    andThen (exec (.setqm true) { s with hdr := Config.resetH }) (exec .enc) = .next { s with
      hdr := { Config.resetH with flags := 2 }
      rsps := s.rsps ++ [statusRsp 0, bytesRsp 0x000001000000000000000000] } := by
  have framed : setQueryMode Config.respModePolicy true Config.resetH = { Config.resetH with flags := 2 } :=
    setQueryMode_true ..
  have bits : encBits { Config.resetH with flags := 2 } = 0x000001000000000000000000 := by decide
  rw [exec_setqm, andThen_next, exec_enc_bits, framed, bits, List.append_assoc]
  rfl

/-! ### The obligations -/

/-- Settles O16: the bytes are the definition, then `encByMemWrite_eq` and `busOfBytes_encHdr`. -/
theorem encoderThreeForms : Obligations.EncoderThreeForms := by
  unfold Obligations.EncoderThreeForms
  exact fun h => ⟨rfl, encByMemWrite_eq h, busOfBytes_encHdr h⟩

/-- Settles O17: purity from what ENC answers on any state, the bits of byte 2 from the gap of the flags word, and injectivity
from that of `FW`. -/
theorem encoderProperties : Obligations.EncoderProperties := by
  unfold Obligations.EncoderProperties
  refine ⟨encHdr_length, fun s s' hdr_eq => ⟨bytesRsp (encBits s.hdr), exec_enc_bits s, ?_⟩,
    fun h => ⟨hiByte (fw h), loByte (fw h), rfl, hiByte_fw_gap h⟩, fun h _ _ => encHdr_opcode_of_ne h,
    fun _ _ => eq_of_encHdr_eq⟩
  rw [hdr_eq]
  exact exec_enc_bits s'

/-- Settles O19: the next state of ENC, the decoding of operation number 6, and the source's example. -/
theorem encResult : Obligations.EncResult := by
  unfold Obligations.EncResult
  exact ⟨exec_enc_bits, decode_enc, exec_setqm_true_then_enc_resetH⟩

end Sys2Proof.Machine
end

section
/-! PROOFS. The family 43_dns_header_decoder: `Dec` on every byte sequence, and the command DEC
(`43_dns_header_decoder.md` R72, R73, R76, R77). -/

namespace Sys2Proof.Machine

/-! ### Twelve bytes and their bus -/

/-- Twelve bytes are the bytes of the bus that carries them. -/
theorem presentedBytes_busOfBytes_twelve {b : List Byte} (hb : b.length = 12) :
    presentedBytes 12 (busOfBytes b) = b := presentedBytes_busOfBytes (len := 12) hb

/-- The 96 bits of a header's ten fields in order, OPCODE at its full width: what `cutBits` cuts
(`43_dns_header_decoder.md` R72). -/
def joinFields (h : Hdr) : Bus :=
  h.id ++ h.qr ++ h.opcode ++ h.flags ++ h.z ++ h.rcode ++ h.qdcount ++ h.ancount ++ h.nscount ++ h.arcount

/-- The fields cut out of 96 bits join to those bits. -/
theorem joinFields_cutBits (v : Bus) : joinFields (cutBits v) = v := by
  unfold joinFields cutBits
  repeat rw [BitVec.extractLsb'_append_extractLsb'_eq_extractLsb' (by rfl)]
  exact BitVec.extractLsb'_eq_self

/-- The fields cut out of joined fields are those fields. -/
theorem cutBits_joinFields (h : Hdr) : cutBits (joinFields h) = h := by
  unfold cutBits joinFields
  obtain ⟨id, qr, opcode, flags, z, rcode, qd, an, ns, ar⟩ := h
  rw [Hdr.mk.injEq]
  refine ⟨?_, ?_, ?_, ?_, ?_, ?_, ?_, ?_, ?_, ?_⟩
  case refine_1 =>
    repeat rw [BitVec.extractLsb'_append_eq_of_le (by decide)]
    exact BitVec.extractLsb'_eq_self
  all_goals
    repeat rw [BitVec.extractLsb'_append_eq_of_le (by decide)]
    exact BitVec.extractLsb'_append_eq_right

/-! ### `Dec` in terms of the bus -/

/-- The header of twelve bytes in either Opcode mode: the ten fields cut out of the 96 bits, with the Opcode that the mode
reads in the flags word (`43_dns_header_decoder.md` R72, R77). -/
def hdrOfBus (mode : OpcodeMode) (v : Bus) : Hdr := { cutBits v with opcode := unpackOpcode mode (v.extractLsb' 64 16) }

/-- Under FIELD4 the header is the ten fields as cut (`43_dns_header_decoder.md` R72). -/
@[simp] theorem hdrOfBus_field4 (v : Bus) : hdrOfBus .field4 v = cutBits v := by
  have opcode : (v.extractLsb' 64 16).extractLsb' 11 4 = v.extractLsb' 75 4 := extract_extract v 64 (by decide)
  simp only [hdrOfBus, unpackOpcode, opcode]
  rfl

/-- Under BIT11 the Opcode is bit 11 of the flags word (`43_dns_header_decoder.md` R77). -/
theorem hdrOfBus_bit11_opcode (v : Bus) : (hdrOfBus .bit11 v).opcode = (v.extractLsb' 75 1).setWidth 4 := by
  have bit : (v.extractLsb' 64 16).extractLsb' 11 1 = v.extractLsb' 75 1 := extract_extract v 64 (by decide)
  simp only [hdrOfBus, unpackOpcode, bit]

/-- The two modes give one header exactly where flags-word bits 14 to 12 are 0 (`43_dns_header_decoder.md` R77). -/
theorem hdrOfBus_agree_iff (v : Bus) : hdrOfBus .field4 v = hdrOfBus .bit11 v ↔ v.extractLsb' 76 3 = 0 := by
  have gap : (v.extractLsb' 64 16).extractLsb' 12 3 = v.extractLsb' 76 3 := extract_extract v 64 (by decide)
  rw [← gap, ← unpackOpcode_agree_iff]
  simp [hdrOfBus]

/-- `Dec` on a wrong length (`43_dns_header_decoder.md` R72). -/
theorem decBytes_of_ne (mode : OpcodeMode) (strictZ : Bool) {b : List Byte} (hb : b.length ≠ 12) :
    decBytes mode strictZ b = .formatError := decBuffer_of_ne mode strictZ b hb

/-- With the strict-Z option off, `Dec` on twelve bytes is the header of their bus (`43_dns_header_decoder.md` R72). -/
theorem decBytes_lenient (mode : OpcodeMode) {b : List Byte} (hb : b.length = 12) :
    decBytes mode false b = .header (hdrOfBus mode (busOfBytes b)) := by
  have flagsWord := busByte_append_busByte (busOfBytes b) (k := 2) (by decide)
  rw [hdrOfBus, cutBits_eq, ← flagsWord]
  conv_lhs => rw [← presentedBytes_busOfBytes_twelve hb]
  exact headerOfWords_lenient mode _ _ _ _ _ _

/-- With this hardware's parameters `Dec` on twelve bytes cuts their 96 bits into the ten fields
(`43_dns_header_decoder.md` R72). -/
theorem decBytes_eq_cutBits {b : List Byte} (hb : b.length = 12) :
    decBytes Config.decOpcodeMode Config.strictZ b = .header (cutBits (busOfBytes b)) := by
  rw [← hdrOfBus_field4]
  exact decBytes_lenient .field4 hb

/-- `Dec` answers FormatError or a header (`43_dns_header_decoder.md` R80). -/
theorem decBytes_total (mode : OpcodeMode) (strictZ : Bool) (b : List Byte) :
    decBytes mode strictZ b = .formatError ∨ ∃ h, decBytes mode strictZ b = .header h := by
  cases hd : decBytes mode strictZ b with
  | header h => exact .inr ⟨h, rfl⟩
  | formatError => exact .inl rfl
  | outOfBounds =>
    by_cases hb : b.length = 12
    · exact absurd hd (decBuffer_ne_outOfBounds mode strictZ (by omega))
    · rw [decBytes_of_ne mode strictZ hb] at hd
      cases hd

/-- `Dec` of an encoded header, in every setting of its parameters: the header with OPCODE reduced to 0 or 1, unless the
strict-Z option refuses its Z (`43_dns_header_decoder.md` R76, R78). -/
theorem decBytes_encHdr (mode : OpcodeMode) (strictZ : Bool) (h : Hdr) : decBytes mode strictZ (encHdr h) =
    if strictZ = true ∧ h.z ≠ 0 then .formatError else .header { h with opcode := if h.opcode ≠ 0 then 1 else 0 } := by
  have words : decBytes mode strictZ (encHdr h) =
      headerOfWords mode strictZ h.id (fw h) h.qdcount h.ancount h.nscount h.arcount := by
    refine (decBuffer_twelve ..).trans ?_
    simp only [hiByte_append_loByte]
  rw [words, headerOfWords, unfw_fw]

/-! ### DEC -/

/-- DEC of twelve bytes answers the ten fields cut out of them, and keeps the rest of the state
(`43_dns_header_decoder.md` R73, R74). -/
theorem exec_dec_twelve (s : State) {bytes : List Byte} (hb : bytes.length = 12) :
    exec (.dec 12 bytes) s = .next (deliver (headerRsp (cutBits (busOfBytes bytes))) s) := by
  conv_lhs => rw [← presentedBytes_busOfBytes_twelve hb]
  exact execDec_presentedBytes _ s

/-! ### The obligations -/

/-- Settles O34: the wrong lengths by `decBytes_of_ne`, the six words by `decBuffer_twelve`, the 96 bits by cutting and
joining them. -/
theorem decoderResult : Obligations.DecoderResult := by
  unfold Obligations.DecoderResult
  exact ⟨fun mode strictZ _ => decBytes_of_ne mode strictZ, decBuffer_twelve,
    fun _ hb => ⟨_, decBytes_eq_cutBits hb, joinFields_cutBits _⟩⟩

/-- Settles O36: Z is cut from the same bits in either mode, and `decBytes_encHdr` says when strictness refuses it. -/
theorem strictZOption : Obligations.StrictZOption := by
  unfold Obligations.StrictZOption
  refine ⟨rfl, fun mode b hb => ⟨_, decBytes_lenient mode hb, rfl⟩, fun mode h => ⟨_, decBytes_encHdr mode false h, rfl⟩,
    fun mode h => ?_, fun mode _ => decBytes_of_ne mode true⟩
  rw [decBytes_encHdr]
  by_cases hz : h.z = 0 <;> simp [hz]

/-- Settles O37: on encoded headers both modes give what `decBytes_encHdr` says, and on twelve bytes each gives the header of
the bus. -/
theorem opcodeModesDisagreeExactly : Obligations.OpcodeModesDisagreeExactly := by
  unfold Obligations.OpcodeModesDisagreeExactly
  refine ⟨rfl, fun h => (decBytes_encHdr .field4 false h).trans (decBytes_encHdr .bit11 false h).symm, fun b hb => ?_,
    fun b hb => ⟨_, _, decBytes_lenient .field4 hb, ?_, decBytes_lenient .bit11 hb, hdrOfBus_bit11_opcode _⟩⟩
  · rw [decBytes_lenient .field4 hb, decBytes_lenient .bit11 hb, DecResult.header.injEq]
    exact hdrOfBus_agree_iff _
  · rw [hdrOfBus_field4]
    rfl

/-- Settles O38: the decoding of operation number 7, what DEC answers on each length, and R73's example as DEC of a bus. -/
theorem decResultAndPurity : Obligations.DecResultAndPurity := by
  unfold Obligations.DecResultAndPurity
  refine ⟨fun len din => ⟨_, decode_dec len din, presentedBytes_length len din⟩, fun s _ => exec_dec_twelve s,
    fun s _ bytes hlen => execDec_of_ne bytes s hlen, fun s => ?_⟩
  have fields : cutBits 0x123481800001000200030004 =
      { id := 0x1234, qr := 1, opcode := 0, flags := 3, z := 0, rcode := 0, qdcount := 1, ancount := 2, nscount := 3,
        arcount := 4 } := by decide
  have command : decode ⟨0x7000C, 0x123481800001000200030004⟩ =
      .dec 12 (presentedBytes 12 0x123481800001000200030004) := decode_dec 12 _
  rw [command, ← fields]
  exact execDec_presentedBytes _ s

end Sys2Proof.Machine
end

section
/-! PROOFS. The family 43_dns_header_decoder: the laws that tie `Dec` to `Enc` (`43_dns_header_decoder.md` R78, R79, R80). -/

namespace Sys2Proof.Machine

/-! ### Packing the fields that were unpacked

The flags word that `FW` gives after `UNFW` agrees with the word that was unpacked outside bits 14 to 11
(`30_encoding.md` R42). -/

/-- A part of a part of a word is a part of the word. -/
theorem extract_extract_word (w : Word) {n b m : Nat} (a : Nat) (h : b + m ≤ n) :
    (w.extractLsb' a n).extractLsb' b m = w.extractLsb' (a + b) m := by
  ext i hi
  have hbi : b + i < n := by omega
  simp [hbi, Nat.add_assoc]

/-- A part of the high byte is a part of the word. -/
theorem extract_hiByte (w : Word) {a n : Nat} (h : a + n ≤ 8) : (hiByte w).extractLsb' a n = w.extractLsb' (8 + a) n :=
  extract_extract_word w 8 h

section
variable (mode : OpcodeMode) (h : Hdr) (w : Word)

theorem fw_unfw_low : (fw (putFields h (unfw mode w))).extractLsb' 0 11 = w.extractLsb' 0 11 := by
  cases mode with
  | field4 =>
    rw [fw_unfw_field4, BitVec.extractLsb'_or, extract_and_of_ones w rfl]
    grind
  | bit11 =>
    rw [fw_unfw_bit11]
    exact extract_and_of_ones w rfl

theorem loByte_fw_unfw : loByte (fw (putFields h (unfw mode w))) = loByte w :=
  extract_eq_of_low (fw_unfw_low mode h w) (by decide)

/-- The high byte comes back exactly where bits 14 to 12 are 0 (`43_dns_header_decoder.md` R79). -/
theorem hiByte_fw_unfw_eq_iff : hiByte (fw (putFields h (unfw mode w))) = hiByte w ↔ w.extractLsb' 12 3 = 0 := by
  rw [← fw_unfw_eq_self_iff mode h w]
  exact ⟨fun hi => word_ext hi (loByte_fw_unfw mode h w), congrArg hiByte⟩

/-- The parts of the high byte (`43_dns_header_decoder.md` R79): bits 7 and 2 to 0 stay, bits 6 to 4 become 0, and bit 3
becomes the indicator of the Opcode that was unpacked. -/
theorem hiByte_fw_unfw_parts :
    let c := hiByte (fw (putFields h (unfw mode w)))
    c.extractLsb' 7 1 = (hiByte w).extractLsb' 7 1 ∧ c.extractLsb' 4 3 = 0 ∧
      c.extractLsb' 3 1 = opbit (unpackOpcode mode w) ∧ c.extractLsb' 0 3 = (hiByte w).extractLsb' 0 3 := by
  intro c
  refine ⟨?_, hiByte_fw_gap _, ?_, ?_⟩ <;> rw [extract_hiByte _ (by decide)]
  · rw [extract_hiByte _ (by decide)]
    exact fw_qr _
  · exact fw_opbit _
  · rw [extract_hiByte _ (by decide)]
    exact extract_eq_of_low (fw_unfw_low mode h w) (by decide)

end

/-- An Opcode unpacked under FIELD4 is nonzero where bits 14 to 12, its upper three, are not all 0. -/
theorem unpackOpcode_field4_ne_zero {w : Word} (hgap : w.extractLsb' 12 3 ≠ 0) : unpackOpcode .field4 w ≠ 0 := by
  intro opcode_eq
  have upper : (unpackOpcode .field4 w).extractLsb' 1 3 = w.extractLsb' 12 3 :=
    extract_extract_word w (n := 4) (b := 1) (m := 3) 11 (by decide)
  rw [opcode_eq] at upper
  exact hgap upper.symm

/-! ### `Enc` after `Dec` -/

/-- The header of six wire words (`43_dns_header_decoder.md` R72). -/
def hdrOfWords (mode : OpcodeMode) (id flagsWord qd an ns ar : Word) : Hdr :=
  putFields { zeroHdr with id := id, qdcount := qd, ancount := an, nscount := ns, arcount := ar } (unfw mode flagsWord)

/-- The flags word of a decoded header is that of the fields unpacked, whatever the other words are. -/
theorem fw_hdrOfWords (mode : OpcodeMode) (id w qd an ns ar : Word) :
    fw (hdrOfWords mode id w qd an ns ar) = fw (putFields zeroHdr (unfw mode w)) := fw_congr rfl rfl rfl rfl rfl

/-- With the strict-Z option off, `Dec` on twelve bytes is the header of their six words (`43_dns_header_decoder.md` R72). -/
theorem decBytes_words (mode : OpcodeMode) (b0 b1 b2 b3 b4 b5 b6 b7 b8 b9 b10 b11 : Byte) :
    decBytes mode false [b0, b1, b2, b3, b4, b5, b6, b7, b8, b9, b10, b11] =
      .header (hdrOfWords mode (b0 ++ b1) (b2 ++ b3) (b4 ++ b5) (b6 ++ b7) (b8 ++ b9) (b10 ++ b11)) :=
  headerOfWords_lenient mode (b0 ++ b1) (b2 ++ b3) (b4 ++ b5) (b6 ++ b7) (b8 ++ b9) (b10 ++ b11)

/-- Encoding a decoded header keeps every byte but byte 2, which is the high byte of the flags word packed again
(`43_dns_header_decoder.md` R79). -/
theorem encHdr_hdrOfWords (mode : OpcodeMode) (b0 b1 b2 b3 b4 b5 b6 b7 b8 b9 b10 b11 : Byte) :
    encHdr (hdrOfWords mode (b0 ++ b1) (b2 ++ b3) (b4 ++ b5) (b6 ++ b7) (b8 ++ b9) (b10 ++ b11)) =
      [b0, b1, hiByte (fw (putFields zeroHdr (unfw mode (b2 ++ b3)))), b3, b4, b5, b6, b7, b8, b9, b10, b11] := by
  rw [encHdr, fw_hdrOfWords, loByte_fw_unfw]
  simp [hdrOfWords, putFields]

/-! ### `Dec` as a map from buffers to headers -/

/-- With this hardware's parameters the twelve bytes that decode to a header are those of its fields joined
(`43_dns_header_decoder.md` R80). -/
theorem decBytes_eq_header_iff {b : List Byte} (h : Hdr) :
    b.length = 12 ∧ decBytes Config.decOpcodeMode Config.strictZ b = .header h ↔ b = presentedBytes 12 (joinFields h) := by
  constructor
  · rintro ⟨hlen, hdec⟩
    rw [decBytes_eq_cutBits hlen, DecResult.header.injEq] at hdec
    rw [← hdec, joinFields_cutBits, presentedBytes_busOfBytes_twelve hlen]
  · rintro rfl
    have hlen : (presentedBytes 12 (joinFields h)).length = 12 := presentedBytes_length 12 _
    refine ⟨hlen, ?_⟩
    rw [decBytes_eq_cutBits hlen, busOfBytes_presentedBytes, cutBits_joinFields]

/-- Under BIT11 no Opcode above 1 is decoded (`43_dns_header_decoder.md` R80). -/
theorem decBytes_bit11_opcode_lt {b : List Byte} {h : Hdr} (hdec : decBytes .bit11 false b = .header h) :
    h.opcode.toNat < 2 := by
  by_cases hb : b.length = 12
  · rw [decBytes_lenient .bit11 hb, DecResult.header.injEq] at hdec
    rw [← hdec, hdrOfBus_bit11_opcode, BitVec.toNat_setWidth_of_le (by decide)]
    exact BitVec.isLt _
  · rw [decBytes_of_ne .bit11 false hb] at hdec
    cases hdec

/-! ### The obligations -/

/-- Settles O40: `decBytes_encHdr` with the strict-Z option off and on; an Opcode of 0 or 1 is its own reduction. -/
theorem decodeInvertsEncode : Obligations.DecodeInvertsEncode := by
  unfold Obligations.DecodeInvertsEncode
  refine ⟨fun mode h => decBytes_encHdr mode false h, fun mode h hop => ?_, fun mode h => ?_⟩
  · have reduced : (if h.opcode ≠ 0 then 1 else 0) = h.opcode := by rcases hop with hop | hop <;> simp [hop]
    refine (decBytes_encHdr mode false h).trans ?_
    rw [reduced]
    rfl
  · rw [decBytes_encHdr]
    by_cases hz : h.z = 0 <;> simp [hz]

/-- Settles O41: every byte but byte 2 by `encHdr_hdrOfWords`, and byte 2 as the high byte of the flags word packed again. -/
theorem encodeAfterDecode : Obligations.EncodeAfterDecode := by
  unfold Obligations.EncodeAfterDecode
  intro mode b0 b1 b2 b3 b4 b5 b6 b7 b8 b9 b10 b11
  have enc := encHdr_hdrOfWords mode b0 b1 b2 b3 b4 b5 b6 b7 b8 b9 b10 b11
  have byte2_iff := hiByte_fw_unfw_eq_iff mode zeroHdr (b2 ++ b3)
  rw [hiByte_append] at byte2_iff
  refine ⟨_, _, decBytes_words mode b0 b1 b2 b3 b4 b5 b6 b7 b8 b9 b10 b11, enc, ?_, fun hgap => ⟨mt byte2_iff.mp hgap, ?_⟩⟩
  · rw [enc, ← byte2_iff]
    simp
  · obtain ⟨bit7, gap, bit3, low⟩ := hiByte_fw_unfw_parts mode zeroHdr (b2 ++ b3)
    rw [hiByte_append] at bit7 low
    refine ⟨bit7, gap, bit3.trans ?_, low⟩
    cases mode with
    | field4 => exact opbit_of_ne (unpackOpcode_field4_ne_zero hgap)
    | bit11 =>
      have bit := extract_hiByte (b2 ++ b3) (a := 3) (n := 1) (by decide)
      rw [hiByte_append] at bit
      exact (opbit_setWidth _).trans bit.symm

/-- Settles O42: the one buffer of a header carries its fields joined; under BIT11 bits 14 to 12 are lost, and the Opcode is
one bit. -/
theorem decoderIsABijection : Obligations.DecoderIsABijection := by
  unfold Obligations.DecoderIsABijection
  refine ⟨decBytes_total, fun h => ?_, fun _ hb => ⟨_, decBytes_eq_cutBits hb⟩, ?_,
    fun _ hop _ hdec => absurd hop (Nat.not_le.mpr (decBytes_bit11_opcode_lt hdec))⟩
  · exact ⟨_, (decBytes_eq_header_iff h).mpr rfl, fun _ => (decBytes_eq_header_iff h).mp⟩
  · exact ⟨[0, 0, 0x10, 0, 0, 0, 0, 0, 0, 0, 0, 0], List.replicate 12 0, by decide, rfl, rfl, by decide⟩

end Sys2Proof.Machine
end

section
/-! PROOFS. The family 60_exceptions: an error has no effect on `H` and carries no data (`60_exceptions.md` R82, R83). -/

namespace Sys2Proof.Machine

/-- A command either succeeds or keeps `H` and answers a status alone (`60_exceptions.md` R82, R83). -/
theorem transact_ok_or_error (h : Hdr) (c : Cmd) (d : Draw) :
    (transact h c d).2.status = 0 ∨ ∃ status, transact h c d = (h, statusRsp status) := by
  obtain ⟨w, din⟩ := c
  obtain ⟨op, arg, rfl⟩ := exists_cmdWord_fields w
  rcases op_cases op with rfl | rfl | rfl | rfl | rfl | rfl | rfl | rfl | hop
  · exact .inl (by rw [transact_new, statusRsp_status])
  · cases d with
    | success b0 b1 => exact .inl (by rw [transact_setid_success, statusRsp_status])
    | failure => exact .inr ⟨1, transact_setid_failure ..⟩
  · exact .inl (by rw [transact_setqm, statusRsp_status])
  · exact .inl (by rw [transact_setqd, statusRsp_status])
  · exact .inl (by rw [transact_setns, statusRsp_status])
  · exact .inl (by rw [transact_setar, statusRsp_status])
  · exact .inl (by rw [transact_enc]; rfl)
  · by_cases hlen : arg = 12#16
    · subst hlen
      exact .inl (by rw [transact_dec_twelve]; rfl)
    · exact .inr ⟨2, transact_dec_of_ne _ _ _ hlen⟩
  · exact .inr ⟨3, transact_reserved _ _ _ _ hop⟩

/-- Settles O48: the step is the transition of R14, which on an error keeps `H` and answers a status alone. -/
theorem errorsArePreciseAndCarryNoData : Obligations.ErrorsArePreciseAndCarryNoData := by
  unfold Obligations.ErrorsArePreciseAndCarryNoData
  intro s t rest c hstep
  rw [step_command] at hstep
  cases hstep
  refine ⟨(transact s.hdr c (nextDraw s)).2, rfl, rfl, fun hne => ?_⟩
  obtain ⟨status, herr⟩ := (transact_ok_or_error s.hdr c (nextDraw s)).resolve_left hne
  have hhdr : (afterCommand c { s with host := rest }).hdr = (transact s.hdr c (nextDraw s)).1 := rfl
  rw [hhdr, herr]
  exact ⟨rfl, statusRsp_encBytes status, statusRsp_decHdr status⟩

end Sys2Proof.Machine
end

section
/-! PROOFS. The family 70_reset_and_hazards: what one command keeps or destroys of the header that earlier commands made
(`70_reset_and_hazards.md` R98, R101, R102). -/

namespace Sys2Proof.Machine

/-! ### ENC after ENC -/

/-- ENC keeps `H`, so a second ENC encodes the same header (`70_reset_and_hazards.md` R101). -/
theorem exec_enc_then_enc (s : State) : andThen (exec .enc s) (exec .enc) = .next { s with
    rsps := s.rsps ++ [bytesRsp (encBits s.hdr), bytesRsp (encBits s.hdr)] } := by
  rw [exec_enc_bits, andThen_next, exec_enc_bits, List.append_assoc]
  rfl

/-! ### SETQM on a used header -/

/-- Response framing of the header NEW leaves, where there is no RD bit to inherit (`70_reset_and_hazards.md` R102). -/
theorem fw_responseFramed_resetH : fw (setQueryMode .hold false Config.resetH) = 0x8800 := by decide

/-- QDCOUNT is safe from SETQM in either mode (`70_reset_and_hazards.md` R98). -/
@[simp] theorem qdcount_setQueryMode (policy : RespModePolicy) (q : Bool) (h : Hdr) :
    (setQueryMode policy q h).qdcount = h.qdcount := by
  have commute := congrArg Hdr.qdcount (setQueryMode_qdcount policy q h h.qdcount)
  exact commute

/-! ### The obligations -/

/-- Settles O20: the response is the encoding of `H`, which the first ENC leaves to the second. -/
theorem encDoesNotConsumeTheHeader : Obligations.EncDoesNotConsumeTheHeader := by
  unfold Obligations.EncDoesNotConsumeTheHeader
  exact fun s => ⟨bytesRsp (encBits s.hdr), exec_enc_bits s, exec_enc_then_enc s⟩

/-- Settles O24: the header each pair of commands leaves, its flags word, and the writes of response framing under HOLD. -/
theorem responseFramingInherits : Obligations.ResponseFramingInherits := by
  unfold Obligations.ResponseFramingInherits
  intro s
  refine ⟨?_, ?_, ?_⟩
  · rw [exec_new, andThen_next, exec_setqm]
    exact ⟨_, rfl, fw_responseFramed_resetH⟩
  · rw [exec_setqm, andThen_next, exec_setqm]
    exact ⟨_, rfl, fw_responseFramed_hold Config.respModePolicy s.hdr⟩
  · rw [exec_setqm, Config.respModePolicy, setQueryMode_hold_false]
    exact ⟨_, rfl, rfl, rfl, rfl⟩

/-- Settles O28: the header that SETNS, SETAR and SETQD make, and what SETQM leaves in its three counts. -/
theorem queryFramingDestroysCounts : Obligations.QueryFramingDestroysCounts := by
  unfold Obligations.QueryFramingDestroysCounts
  intro n m k q s
  rw [exec_setns, andThen_next, exec_setar, andThen_next, exec_setqd, andThen_next, exec_setqm]
  exact ⟨_, rfl, nscount_setQueryMode .., arcount_setQueryMode .., qdcount_setQueryMode ..⟩

end Sys2Proof.Machine
end

section
/-! PROOFS. The whole machine: the step and the run as the transitions of `00_scope.md` R14, one event at a time
(`20_memory.md` R34; `70_reset_and_hazards.md` R106). -/

namespace Sys2Proof.Machine

/-! ### The step on an event -/

/-- The state after one host event, by the transition of R14 or the reset event of R94. -/
def afterEvent : HostEvent → State → State
  | .command c, s => afterCommand c s
  | .reset, s => resetEvent s

/-- The step on a state with an event to take (`00_scope.md` R14). -/
theorem step_of_event {s : State} {e : HostEvent} {rest : List HostEvent} (h : s.host = e :: rest) :
    step s = .next (afterEvent e { s with host := rest }) := by
  cases e with
  | command c => rw [step_of_command h, exec_decode, afterEvent]
  | reset => rw [step_of_reset h, afterEvent]

/-- Settles O57: with no event the step answers the state itself, and with one `afterEvent`. -/
theorem stepAlwaysAnswersANextState : Obligations.StepAlwaysAnswersANextState := by
  unfold Obligations.StepAlwaysAnswersANextState
  intro s
  cases hs : s.host with
  | nil => exact ⟨s, step_of_idle hs⟩
  | cons e rest => exact ⟨_, step_of_event hs⟩

/-- Settles O58: `step_command`, whose next state `afterCommand` is the statement's. -/
theorem stepRefinesTheTransition : Obligations.StepRefinesTheTransition := by
  unfold Obligations.StepRefinesTheTransition
  exact fun s c rest => step_command s rest c

/-! ### The provider's answers along a run -/

/-- The next answer is the one to request 0 from here on (`40_csprng_id_injector.md` R56). -/
theorem drawAt_zero (s : State) : drawAt s 0 = nextDraw s := by
  unfold drawAt nextDraw
  cases s.draws <;> rfl

/-- The answers from a state on depend on its answers and request count alone. -/
theorem drawAt_congr {s s' : State} (hd : s'.draws = s.draws) (hr : s'.requests = s.requests) : drawAt s' = drawAt s := by
  funext k
  simp only [drawAt, hd, hr]

/-- One request later the answers are the same ones, counted from the next request. -/
theorem drawAt_of_request {s s' : State} (hd : s'.draws = s.draws.tail) (hr : s'.requests = s.requests + 1) :
    drawAt s' = fun k => drawAt s (k + 1) := by
  funext k
  unfold drawAt
  rw [hd, hr]
  have later : s.requests + 1 + k = s.requests + (k + 1) := by omega
  cases s.draws <;> simp [later]

/-- After a command the answers are those of `specRun`: SETID takes one, every other command none. -/
theorem drawAt_afterCommand (c : Cmd) (s : State) :
    drawAt (afterCommand c s) = if isSetid (.command c) then fun k => drawAt s (k + 1) else drawAt s := by
  by_cases hid : isSetid (.command c) = true
  · rw [if_pos hid]
    exact drawAt_of_request (if_pos hid) (if_pos hid)
  · rw [if_neg hid]
    exact drawAt_congr (if_neg hid) (if_neg hid)

/-! ### Runs -/

/-- The run of a list of events, from any state, ends with the header and the responses of `specRun`
(`70_reset_and_hazards.md` R106). -/
theorem run_specRun (es : List HostEvent) : ∀ s : State, s.host = es → ∃ t : State,
    Host.Core.run Sys2Proof.core es.length s = .next t ∧ t.host = [] ∧
    t.hdr = (specRun s.hdr (drawAt s) es).1 ∧ t.rsps = s.rsps ++ (specRun s.hdr (drawAt s) es).2 := by
  induction es with
  | nil =>
    intro s hs
    exact ⟨s, rfl, hs, rfl, (List.append_nil _).symm⟩
  | cons e rest ih =>
    intro s hs
    obtain ⟨t, hrun, hhost, hhdr, hrsps⟩ := ih (afterEvent e { s with host := rest }) (by cases e <;> rfl)
    refine ⟨t, (run_succ_of_next (step_of_event hs) _).trans hrun, hhost, ?_⟩
    cases e with
    | reset => exact ⟨hhdr, hrsps⟩
    | command c =>
      have hdraw : nextDraw { s with host := rest } = drawAt s 0 := (drawAt_zero s).symm
      simp only [afterEvent, drawAt_afterCommand] at hhdr hrsps
      rw [afterCommand, hdraw] at hhdr hrsps
      exact ⟨hhdr, hrsps.trans (List.append_assoc ..)⟩

/-- Settles O59: `run_specRun` on the state's own events. -/
theorem runIsTheSpecifiedRun : Obligations.RunIsTheSpecifiedRun := by
  unfold Obligations.RunIsTheSpecifiedRun
  exact fun s => run_specRun s.host s rfl

/-! ### What one event adds -/

section
variable (e : HostEvent) (s : State)

/-- Every event leaves the events after it. -/
theorem host_afterEvent : (afterEvent e s).host = s.host := by cases e <;> rfl

/-- A command adds one response and reset none (`30_encoding.md` R52; `70_reset_and_hazards.md` R94). -/
theorem rsps_afterEvent : ∃ rs : List Rsp, (afterEvent e s).rsps = s.rsps ++ rs ∧ rs.length = [e].countP isCommand := by
  cases e with
  | command c => exact ⟨_, rfl, rfl⟩
  | reset => exact ⟨[], (List.append_nil _).symm, rfl⟩

/-- A SETID makes one request and any other event none (`40_csprng_id_injector.md` R56). -/
theorem requests_afterEvent : (afterEvent e s).requests = s.requests + [e].countP isSetid := by
  cases e with
  | command c =>
    rw [List.countP_singleton]
    change (if isSetid (.command c) then s.requests + 1 else s.requests) = _
    split <;> rfl
  | reset => rfl

/-- A SETID takes one answer and any other event none (`40_csprng_id_injector.md` R56). -/
theorem draws_afterEvent : (afterEvent e s).draws = s.draws.drop ([e].countP isSetid) := by
  cases e with
  | command c =>
    rw [List.countP_singleton]
    change (if isSetid (.command c) then s.draws.tail else s.draws) = _
    split
    · exact List.drop_one.symm
    · rfl
  | reset => rfl

end

/-- Settles O60, by induction on the number of steps: each step adds what its event adds, and an idle step nothing. -/
theorem oneResponsePerCommandAndOneDrawPerSetid : Obligations.OneResponsePerCommandAndOneDrawPerSetid := by
  unfold Obligations.OneResponsePerCommandAndOneDrawPerSetid
  simp only [← List.countP_eq_length_filter]
  intro s n
  induction n generalizing s with
  | zero => exact ⟨s, rfl, rfl, rfl, List.prefix_rfl, rfl, rfl⟩
  | succ n ih =>
    cases hs : s.host with
    | nil =>
      obtain ⟨t, hrun, hhost, hrest⟩ := ih s
      rw [hs, List.take_nil] at hrest
      rw [hs, List.drop_nil] at hhost
      exact ⟨t, (run_succ_of_next (step_of_idle hs) n).trans hrun, hhost, hrest⟩
    | cons e rest =>
      obtain ⟨t, hrun, hhost, hlen, hprefix, hreq, hdraws⟩ := ih (afterEvent e { s with host := rest })
      obtain ⟨rs, hrs, hrslen⟩ := rsps_afterEvent e { s with host := rest }
      rw [host_afterEvent] at hhost hlen hreq hdraws
      rw [hrs] at hlen hprefix
      rw [requests_afterEvent] at hreq
      rw [draws_afterEvent, List.drop_drop] at hdraws
      have split (p : HostEvent → Bool) : ((e :: rest).take (n + 1)).countP p = [e].countP p + (rest.take n).countP p :=
        List.countP_append (l₁ := [e])
      refine ⟨t, (run_succ_of_next (step_of_event hs) n).trans hrun, hhost, ?_, (List.prefix_append _ _).trans hprefix,
        ?_, ?_⟩
      · rw [hlen, List.length_append, hrslen, split, Nat.add_assoc]
      · rw [hreq, split, Nat.add_assoc]
      · rw [hdraws, split]

end Sys2Proof.Machine
end

section
/-! PROOFS. The command word: the decoder and the encoder agree, and what no command inherits from an earlier error
(`30_encoding.md` R47, R54; `60_exceptions.md` R84). -/

namespace Sys2Proof.Machine

/-! ### Decode and encode -/

/-- A well-formed command comes back from the word and data bus that the assembler writes for it (`30_encoding.md` R54). -/
theorem decode_encode {i : Instr} (hwf : i.wellFormed = true) : decode (encode i) = i := by
  cases i with
  | new => exact decode_new 0 0
  | setid => exact decode_setid 0 0
  | setqm q => exact (decode_setqm (boolArg q) 0).trans (congrArg Instr.setqm (getLsbD_boolArg q))
  | setqd n => exact decode_setqd n 0
  | setns n => exact decode_setns n 0
  | setar n => exact decode_setar n 0
  | enc => exact decode_enc 0 0
  | dec len bytes =>
    have hlen : bytes.length = min len.toNat 12 := beq_iff_eq.mp hwf
    exact (decode_dec len (busOfBytes bytes)).trans (congrArg (Instr.dec len) (presentedBytes_busOfBytes hlen))
  | _ => rfl

/-- Settles O8: `decode_encode`. -/
theorem decodeOfEncodeIsTheInstruction : Obligations.DecodeOfEncodeIsTheInstruction := by
  unfold Obligations.DecodeOfEncodeIsTheInstruction
  exact fun _ => decode_encode

/-- Settles O9: DEC is the one command with a check, and the decoder presents it min(len, 12) bytes. -/
theorem decodedInstructionIsWellFormed : Obligations.DecodedInstructionIsWellFormed := by
  unfold Obligations.DecodedInstructionIsWellFormed
  intro c
  unfold decode
  split
  case h_8 => exact beq_iff_eq.mpr (presentedBytes_length _ _)
  all_goals rfl

/-- Settles O7: each word is evaluated, its twelve or two presented bytes with it. -/
theorem assemblerWordsDecode : Obligations.AssemblerWordsDecode := by
  unfold Obligations.AssemblerWordsDecode
  exact ⟨decode_new 0 0, decode_setid 0 0, decode_setqm 1 0, decode_setqm 0 0, decode_setqd 1 0, decode_setns 3 0,
    decode_setar 0xFFFF 0, decode_enc 0 0, decode_dec 12 0x123481800001000200030004,
    decode_dec 2 0x123481800001000200030004, rfl⟩

/-- Settles O11: `step_of_command` and `step_of_idle`. -/
theorem stepRunsTheDecodedCommand : Obligations.StepRunsTheDecodedCommand := by
  unfold Obligations.StepRunsTheDecodedCommand
  exact ⟨fun _ _ _ => step_of_command rfl, fun _ => step_of_idle rfl⟩

/-! ### Commands after an error -/

/-- A well-formed command is the transition of R14 on the assembler's word for it (`00_scope.md` R14). -/
theorem exec_of_wellFormed {i : Instr} (hwf : i.wellFormed = true) (s : State) :
    exec i s = .next (afterCommand (encode i) s) := by
  conv_lhs => rw [← decode_encode hwf]
  exact exec_decode (encode i) s

/-- A command adds its response to those delivered and does not look at them (`60_exceptions.md` R84). -/
theorem afterCommand_with_rsps (c : Cmd) (s : State) (rs : List Rsp) :
    afterCommand c { s with rsps := rs } =
      { afterCommand c s with rsps := rs ++ [(transact s.hdr c (nextDraw s)).2] } := rfl

/-- A DEC of a length other than 12 raises FormatError, and raises it again when repeated (`60_exceptions.md` R84). -/
theorem exec_dec_of_ne_twice {len : Word} (hlen : len ≠ 12) (bytes : List Byte) (s : State) :
    andThen (exec (.dec len bytes) s) (exec (.dec len bytes)) =
      .next { s with rsps := s.rsps ++ [statusRsp 2, statusRsp 2] } := by
  have fails (t : State) : exec (.dec len bytes) t = .next (raise .formatError t) := execDec_of_ne bytes t hlen
  have rsps : s.rsps ++ [statusRsp 2, statusRsp 2] = s.rsps ++ [statusRsp 2] ++ [statusRsp 2] :=
    (List.append_assoc s.rsps [statusRsp 2] [statusRsp 2]).symm
  rw [fails, andThen_next, fails, rsps]
  rfl

/-- Settles O49: an error is one more delivered response, which no command looks at; the two repeats are
`exec_dec_of_ne_twice` and `exec_setid_failure_then_success`. -/
theorem errorsAreNotSticky : Obligations.ErrorsAreNotSticky := by
  unfold Obligations.ErrorsAreNotSticky
  refine ⟨fun e i s hwf => ⟨afterCommand (encode i) s, (transact s.hdr (encode i) (nextDraw s)).2,
    exec_of_wellFormed hwf s, ?_⟩, fun s _ bytes hlen => exec_dec_of_ne_twice hlen bytes s,
    fun _ _ _ _ => exec_setid_failure_then_success rfl⟩
  have raised : raise e s = { s with rsps := s.rsps ++ [errRsp e] } := rfl
  rw [exec_of_wellFormed hwf, raised, afterCommand_with_rsps, List.append_assoc]
  rfl

end Sys2Proof.Machine
end

section
/-! PROOFS. What every run from reset keeps: the reachable headers and their flags words (`10_state.md` R22), and the form of
the responses (`30_encoding.md` R52, R53). -/

namespace Sys2Proof.Machine

/-! ### The reachable headers: kept by every step -/

theorem reachableHdr_resetH : ReachableHdr Config.resetH := ⟨rfl, rfl, rfl, .inl rfl, rfl⟩

/-- Query framing makes QR and OPCODE 0 and FLAGS 2, response framing QR and OPCODE 1 (`10_state.md` R22). -/
theorem ReachableHdr.setQueryMode {h : Hdr} (hr : ReachableHdr h) (q : Bool) :
    ReachableHdr (setQueryMode Config.respModePolicy q h) := by
  obtain ⟨han, hz, hrc, hfl, -⟩ := hr
  cases q with
  | true => exact ⟨han, rfl, rfl, .inr rfl, rfl⟩
  | false => exact ⟨han, hz, hrc, hfl, rfl⟩

/-- The transition of R14 keeps the invariant of the reachable headers (`10_state.md` R22). -/
theorem ReachableHdr.transact {h : Hdr} (hr : ReachableHdr h) (c : Cmd) (d : Draw) :
    ReachableHdr (transact h c d).1 := by
  obtain ⟨w, din⟩ := c
  obtain ⟨op, arg, rfl⟩ := exists_cmdWord_fields w
  rcases op_cases op with rfl | rfl | rfl | rfl | rfl | rfl | rfl | rfl | hop
  · rw [transact_new]
    exact reachableHdr_resetH
  · cases d with
    | success b0 b1 => rwa [transact_setid_success]
    | failure => rwa [transact_setid_failure]
  · rw [transact_setqm]
    exact hr.setQueryMode _
  · rwa [transact_setqd]
  · rwa [transact_setns]
  · rwa [transact_setar]
  · rwa [transact_enc]
  · by_cases hlen : arg = 12#16
    · subst hlen
      rwa [transact_dec_twelve]
    · rwa [transact_dec_of_ne _ _ _ hlen]
  · rwa [transact_reserved _ _ _ _ hop]

/-- Settles O51: `reachableHdr_resetH`. -/
theorem reachableHeaderAtReset : Obligations.ReachableHeaderAtReset := by
  unfold Obligations.ReachableHeaderAtReset
  exact reachableHdr_resetH

/-- Settles O52: an idle step keeps the header, reset writes RESET_H, and a command is a transition of R14. -/
theorem stepKeepsReachableHeader : Obligations.StepKeepsReachableHeader := by
  unfold Obligations.StepKeepsReachableHeader
  intro s t hr hstep
  rcases step_cases hstep with ⟨-, rfl⟩ | ⟨rest, -, rfl⟩ | ⟨c, rest, -, hexec⟩
  · exact hr
  · exact reachableHdr_resetH
  · rw [exec_decode] at hexec
    cases hexec
    exact hr.transact c _

/-! ### The reachable headers: each reached by a run -/

/-- The header with these QR and FLAGS, OPCODE as QR, and every other field 0 (`10_state.md` R22). -/
def framedHdr (qr : BitVec 1) (flags : BitVec 4) : Hdr := { zeroHdr with qr := qr, opcode := qr.setWidth 4, flags := flags }

/-- A reachable header is a framed one with an ID and three counts of its own. -/
theorem ReachableHdr.eq_framedHdr {h : Hdr} (hr : ReachableHdr h) : h =
    { framedHdr h.qr h.flags with id := h.id, qdcount := h.qdcount, nscount := h.nscount, arcount := h.arcount } := by
  obtain ⟨han, hz, hrc, -, hop⟩ := hr
  exact hdr_ext fun
    | .opcode => hop
    | .z => hz
    | .rcode => hrc
    | .ancount => han
    | .id | .qr | .flags | .qdcount | .nscount | .arcount => rfl

/-- The framings that end with this QR and these FLAGS: SETQM 1 for FLAGS 2, then SETQM 0 for QR 1. -/
def framingEvents (qr : BitVec 1) (flags : BitVec 4) : List HostEvent :=
  (if flags = 2 then [.command ⟨0x2#4 ++ 1#16, 0⟩] else []) ++ (if qr = 1 then [.command ⟨0x2#4 ++ 0#16, 0⟩] else [])

/-- The three commands that write the counts. -/
def countEvents (qd ns ar : Word) : List HostEvent :=
  [.command ⟨0x3#4 ++ qd, 0⟩, .command ⟨0x4#4 ++ ns, 0⟩, .command ⟨0x5#4 ++ ar, 0⟩]

/-- The commands that make a header of the invariant from reset: SETID for the ID, the framings, and the three counts. -/
def eventsTo (h : Hdr) : List HostEvent :=
  .command ⟨0x1#4 ++ 0#16, 0⟩ :: (framingEvents h.qr h.flags ++ countEvents h.qdcount h.nscount h.arcount)

/-- The header of a run over a command other than SETID goes on from the header of its transition. -/
theorem specRun_command_fst {c : Cmd} {h h' : Hdr} {r : Rsp} {d : Nat → Draw} (hid : isSetid (.command c) = false)
    (ht : transact h c (d 0) = (h', r)) (es : List HostEvent) :
    (specRun h d (.command c :: es)).1 = (specRun h' d es).1 := by
  simp only [specRun, hid, ht]
  rfl

/-- The header of a run over a SETID that draws this value goes on with the value as its ID. -/
theorem specRun_setid_fst {v : Word} {d : Nat → Draw} (hd : d 0 = .success (hiByte v) (loByte v)) (h : Hdr) (arg : Word)
    (es : List HostEvent) : (specRun h d (.command ⟨0x1#4 ++ arg, 0⟩ :: es)).1 =
      (specRun { h with id := v } (fun k => d (k + 1)) es).1 := by
  have hid : isSetid (.command ⟨0x1#4 ++ arg, 0⟩) = true := isSetid_append ..
  simp only [specRun, hid, hd, transact_setid_success, hiByte_append_loByte]
  rfl

/-- The framings make the framed header, whatever the ID is. -/
theorem specRun_framingEvents (v : Word) {qr : BitVec 1} {flags : BitVec 4} (hfl : flags = 0 ∨ flags = 2)
    (d : Nat → Draw) (es : List HostEvent) :
    (specRun { zeroHdr with id := v } d (framingEvents qr flags ++ es)).1 =
      (specRun { framedHdr qr flags with id := v } d es).1 := by
  have query (h : Hdr) (es : List HostEvent) :=
    specRun_command_fst (isSetid_append 0x2#4 1#16 0) (transact_setqm h 1#16 0 (d 0)) es
  have response (h : Hdr) (es : List HostEvent) :=
    specRun_command_fst (isSetid_append 0x2#4 0#16 0) (transact_setqm h 0#16 0 (d 0)) es
  obtain rfl | rfl : qr = 0 ∨ qr = 1 := by decide +revert
  all_goals rcases hfl with rfl | rfl
  · rfl
  · exact query _ es
  · exact response _ es
  · exact (query _ _).trans (response _ es)

/-- The three count commands write the three counts. -/
theorem specRun_countEvents (h : Hdr) (d : Nat → Draw) (qd ns ar : Word) :
    (specRun h d (countEvents qd ns ar)).1 = { h with qdcount := qd, nscount := ns, arcount := ar } := by
  unfold countEvents
  rw [specRun_command_fst (isSetid_append ..) (transact_setqd ..),
    specRun_command_fst (isSetid_append ..) (transact_setns ..),
    specRun_command_fst (isSetid_append ..) (transact_setar ..)]
  rfl

/-- The commands to a header of the invariant end with that header, where the provider draws its ID. -/
theorem specRun_eventsTo {h : Hdr} (hr : ReachableHdr h) {d : Nat → Draw} (hd : d 0 = .success (hiByte h.id) (loByte h.id)) :
    (specRun zeroHdr d (eventsTo h)).1 = h := by
  obtain ⟨-, -, -, hfl, -⟩ := id hr
  rw [eventsTo, specRun_setid_fst hd, specRun_framingEvents h.id hfl, specRun_countEvents]
  exact hr.eq_framedHdr.symm

/-- Settles O53: no run leaves the invariant, by `stepKeepsReachableHeader`; and the run over `eventsTo` reaches any header of
it, by the run that the rules give (`runIsTheSpecifiedRun`). -/
theorem reachableHeadersExactly : Obligations.ReachableHeadersExactly := by
  unfold Obligations.ReachableHeadersExactly
  refine fun h => ⟨fun hr => ?_, ?_⟩
  · obtain ⟨t, hrun, -, hhdr, -⟩ := runIsTheSpecifiedRun
      { State.reset with host := eventsTo h, draws := [.success (hiByte h.id) (loByte h.id)] }
    exact ⟨_, _, _, t, hrun, hhdr.trans (specRun_eventsTo hr rfl)⟩
  · rintro ⟨host, draws, n, t, hrun, rfl⟩
    exact run_keeps (P := fun s => ReachableHdr s.hdr) stepKeepsReachableHeader n _ t reachableHdr_resetH hrun

/-! ### The flags words of the reachable headers -/

theorem reachableHdr_framedHdr (qr : BitVec 1) {flags : BitVec 4} (hfl : flags = 0 ∨ flags = 2) :
    ReachableHdr (framedHdr qr flags) := ⟨rfl, rfl, rfl, hfl, rfl⟩

/-- The flags word of a reachable header is that of its framing. -/
theorem ReachableHdr.fw_eq {h : Hdr} (hr : ReachableHdr h) : fw h = fw (framedHdr h.qr h.flags) := by
  conv_lhs => rw [hr.eq_framedHdr]
  exact fw_congr rfl rfl rfl rfl rfl

/-- The flags words of the four framings (`10_state.md` R22). -/
theorem fw_framedHdr : fw (framedHdr 0 0) = 0x0000 ∧ fw (framedHdr 0 2) = 0x0100 ∧ fw (framedHdr 1 0) = 0x8800 ∧
    fw (framedHdr 1 2) = 0x8900 := by decide

/-- Settles O54: the flags word depends on QR and FLAGS alone, and each of their four values is that of a framed header. -/
theorem reachableFlagsWords : Obligations.ReachableFlagsWords := by
  unfold Obligations.ReachableFlagsWords
  obtain ⟨w00, w02, w10, w12⟩ := fw_framedHdr
  refine fun w => ⟨?_, ?_⟩
  · rintro ⟨h, hr, rfl⟩
    obtain ⟨-, -, -, hfl, -⟩ := id hr
    have hqr : h.qr = 0 ∨ h.qr = 1 := by
      generalize h.qr = qr
      decide +revert
    rw [hr.fw_eq]
    rcases hqr with hqr | hqr <;> rcases hfl with hfl | hfl <;> rw [hqr, hfl]
    · exact .inl w00
    · exact .inr (.inl w02)
    · exact .inr (.inr (.inl w10))
    · exact .inr (.inr (.inr w12))
  · rintro (rfl | rfl | rfl | rfl)
    · exact ⟨_, reachableHdr_framedHdr 0 (.inl rfl), w00⟩
    · exact ⟨_, reachableHdr_framedHdr 0 (.inr rfl), w02⟩
    · exact ⟨_, reachableHdr_framedHdr 1 (.inl rfl), w10⟩
    · exact ⟨_, reachableHdr_framedHdr 1 (.inr rfl), w12⟩

/-! ### The form of the responses -/

/-- Bits 78 to 76 of an encoded header are bits 14 to 12 of its flags word, which are clear
(`42_dns_header_encoder.md` R69 d). -/
theorem encBits_gap (h : Hdr) : (encBits h).extractLsb' 76 3 = 0 := by
  have flagsWord : (encBits h).extractLsb' 64 16 = fw h := by
    unfold encBits
    repeat rw [BitVec.extractLsb'_append_eq_of_le (by decide)]
    exact BitVec.extractLsb'_append_eq_right
  have gap := extract_extract (encBits h) (n := 16) (b := 12) (m := 3) 64 (by decide)
  rw [← gap, flagsWord, fw_gap]

theorem rspForm_statusRsp (v : BitVec 2) : RspForm (statusRsp v) := by
  refine ⟨fun _ => ⟨rfl, rfl⟩, .inl rfl, ?_⟩
  rw [statusRsp_encBytes]
  rfl

/-- Every response of the transition of R14 is in form: an error carries a status alone, and of the commands that succeed ENC
alone carries bytes and DEC alone a header (`30_encoding.md` R52, R53). -/
theorem rspForm_transact (h : Hdr) (c : Cmd) (d : Draw) : RspForm (transact h c d).2 := by
  rcases transact_ok_or_error h c d with hok | ⟨status, herr⟩
  · obtain ⟨-, -, -, henc, hdec⟩ := transact_rsp h c d
    refine ⟨fun hne => absurd hok hne, ?_⟩
    by_cases hop : c.word.extractLsb' 16 4 = 6
    · rw [if_pos hop] at henc
      rw [if_neg (by simp [hop])] at hdec
      exact ⟨.inr hdec, henc ▸ encBits_gap h⟩
    · rw [if_neg hop] at henc
      exact ⟨.inl henc, henc ▸ rfl⟩
  · rw [herr]
    exact rspForm_statusRsp status

/-- Settles O55: idle steps and reset deliver nothing, and a command delivers the response of its transition. -/
theorem stepKeepsResponsesInForm : Obligations.StepKeepsResponsesInForm := by
  unfold Obligations.StepKeepsResponsesInForm
  intro s t hform hstep
  rcases step_cases hstep with ⟨-, rfl⟩ | ⟨rest, -, rfl⟩ | ⟨c, rest, -, hexec⟩
  · exact hform
  · exact hform
  · rw [exec_decode] at hexec
    cases hexec
    exact List.forall_mem_append.mpr ⟨hform, List.forall_mem_singleton.mpr (rspForm_transact s.hdr c _)⟩

/-- Settles O56: there is no response at reset, and every run keeps the form, because every step does. -/
theorem responsesInFormAtReset : Obligations.ResponsesInFormAtReset := by
  unfold Obligations.ResponsesInFormAtReset
  refine ⟨rfl, fun host draws n t hrun => ?_⟩
  exact run_keeps (P := fun s => ∀ r ∈ s.rsps, RspForm r) stepKeepsResponsesInForm n _ t (List.forall_mem_nil _) hrun

end Sys2Proof.Machine
end

section
/-! PROOFS. The setters and SETID as maps of the header (`41_header_setters.md` R66; `40_csprng_id_injector.md` R56, R59), and
the reset event (`70_reset_and_hazards.md` R94). -/

namespace Sys2Proof.Machine

/-! ### The setters as maps of the header -/

/-- What a setter makes of the header; a command that is no setter is given the identity (`41_header_setters.md` R60 to R65). -/
def setterHdr : Instr → Hdr → Hdr
  | .new, _ => Config.resetH
  | .setqm q, h => setQueryMode Config.respModePolicy q h
  | .setqd n, h => { h with qdcount := n }
  | .setns n, h => { h with nscount := n }
  | .setar n, h => { h with arcount := n }
  | _, h => h

/-- The five setters (`41_header_setters.md` R66). -/
theorem isSetter_cases {i : Instr} (hi : isSetter i = true) :
    i = .new ∨ (∃ q, i = .setqm q) ∨ (∃ n, i = .setqd n) ∨ (∃ n, i = .setns n) ∨ ∃ n, i = .setar n := by
  cases i with
  | new => exact .inl rfl
  | setqm q => exact .inr (.inl ⟨q, rfl⟩)
  | setqd n => exact .inr (.inr (.inl ⟨n, rfl⟩))
  | setns n => exact .inr (.inr (.inr (.inl ⟨n, rfl⟩)))
  | setar n => exact .inr (.inr (.inr (.inr ⟨n, rfl⟩)))
  | _ => cases hi

/-- The whole next state of every setter: it cannot fail and makes no request (`41_header_setters.md` R66 c, d). -/
theorem exec_setter {i : Instr} (hi : isSetter i = true) (s : State) : exec i s = .next { s with
    hdr := setterHdr i s.hdr
    rsps := s.rsps ++ [statusRsp 0] } := by
  rcases isSetter_cases hi with rfl | ⟨q, rfl⟩ | ⟨n, rfl⟩ | ⟨n, rfl⟩ | ⟨n, rfl⟩ <;> rfl

/-- Two setters in a row: the header of both, and a response each. -/
theorem exec_setter_then_setter {i j : Instr} (hi : isSetter i = true) (hj : isSetter j = true) (s : State) :
    andThen (exec i s) (exec j) = .next { s with
      hdr := setterHdr j (setterHdr i s.hdr)
      rsps := s.rsps ++ [statusRsp 0] ++ [statusRsp 0] } := by
  rw [exec_setter hi, andThen_next, exec_setter hj]

theorem setQueryMode_hold_idem (q : Bool) (h : Hdr) :
    setQueryMode .hold q (setQueryMode .hold q h) = setQueryMode .hold q h := by
  cases q with
  | true => rw [setQueryMode_true, setQueryMode_true]
  | false => rw [setQueryMode_hold_false, setQueryMode_hold_false]

/-- A setter writes constants, so a second time it writes the same (`41_header_setters.md` R66 a). -/
theorem setterHdr_idem (i : Instr) (h : Hdr) : setterHdr i (setterHdr i h) = setterHdr i h := by
  cases i with
  | setqm q => exact setQueryMode_hold_idem q h
  | _ => rfl

/-- ANCOUNT has no setter but NEW (`41_header_setters.md` R66 e). -/
theorem ancount_setterHdr {i : Instr} (hne : i ≠ .new) (h : Hdr) : (setterHdr i h).ancount = h.ancount := by
  cases i with
  | new => exact absurd rfl hne
  | setqm q => cases q <;> rfl
  | _ => rfl

/-! ### Setters that commute -/

/-- SETQM commutes with every setter it is not excepted with: query framing leaves QDCOUNT alone, and response framing all
three counts (`41_header_setters.md` R66 b). -/
theorem setterHdr_setqm_comm {q : Bool} {j : Instr} (hj : isSetter j = true) (hij : excepted (.setqm q) j = false)
    (hji : excepted j (.setqm q) = false) (h : Hdr) :
    setterHdr j (setterHdr (.setqm q) h) = setterHdr (.setqm q) (setterHdr j h) := by
  rcases isSetter_cases hj with rfl | ⟨q', rfl⟩ | ⟨n, rfl⟩ | ⟨n, rfl⟩ | ⟨n, rfl⟩
  · cases hji
  · obtain rfl : q = q' := by
      decide +revert
    rfl
  · exact (setQueryMode_qdcount Config.respModePolicy q h n).symm
  all_goals
    cases q with
    | true => cases hij
    | false => rfl

/-- Setters that are no excepted pair commute on the header: two count setters write different registers or the same value
(`41_header_setters.md` R66 b). -/
theorem setterHdr_comm {i j : Instr} (hi : isSetter i = true) (hj : isSetter j = true) (hij : excepted i j = false)
    (hji : excepted j i = false) (h : Hdr) : setterHdr j (setterHdr i h) = setterHdr i (setterHdr j h) := by
  rcases isSetter_cases hi with rfl | ⟨q, rfl⟩ | hcount
  · cases hij
  · exact setterHdr_setqm_comm hj hij hji h
  rcases isSetter_cases hj with rfl | ⟨q, rfl⟩ | hcount'
  · cases hji
  · exact (setterHdr_setqm_comm hi hji hij h).symm
  have same_value {n n' : Word} (hne : (n != n') = false) : n = n' := bne_eq_false_iff_eq.mp hne
  rcases hcount with ⟨n, rfl⟩ | ⟨n, rfl⟩ | ⟨n, rfl⟩
  · rcases hcount' with ⟨n', rfl⟩ | ⟨n', rfl⟩ | ⟨n', rfl⟩
    · rw [same_value hij]
    · rfl
    · rfl
  · rcases hcount' with ⟨n', rfl⟩ | ⟨n', rfl⟩ | ⟨n', rfl⟩
    · rfl
    · rw [same_value hij]
    · rfl
  · rcases hcount' with ⟨n', rfl⟩ | ⟨n', rfl⟩ | ⟨n', rfl⟩
    · rfl
    · rfl
    · rw [same_value hij]

/-- Settles O27: the setters as maps of the header are idempotent and commute, and `exec_setter` gives the rest of the state. -/
theorem setterLaws : Obligations.SetterLaws := by
  unfold Obligations.SetterLaws
  refine ⟨fun i s hi => ?_, fun i j s hi hj hij hji => ?_, fun i s t hi hexec => ?_⟩
  · exact ⟨_, _, exec_setter hi s, exec_setter hi _, setterHdr_idem i s.hdr, rfl, rfl, rfl⟩
  · rw [exec_setter_then_setter hi hj, exec_setter_then_setter hj hi, setterHdr_comm hi hj hij hji]
  · rw [exec_setter hi] at hexec
    cases hexec
    by_cases hnew : i = .new
    · subst hnew
      exact .inr ⟨rfl, rfl⟩
    · exact .inl (ancount_setterHdr hnew s.hdr)

/-! ### SETID as a map of the header -/

/-- What SETID makes of the header on each answer of the provider (`40_csprng_id_injector.md` R55, R57). -/
def setidHdr : Draw → Hdr → Hdr
  | .success b0 b1, h => { h with id := b0 ++ b1 }
  | .failure, h => h

/-- The response of SETID on each answer of the provider (`40_csprng_id_injector.md` R55, R57). -/
def setidRsp : Draw → Rsp
  | .success _ _ => statusRsp 0
  | .failure => statusRsp 1

/-- The whole next state of SETID, on either answer: one request is made and one answer taken
(`40_csprng_id_injector.md` R55, R56, R57). -/
theorem exec_setid (s : State) : exec .setid s = .next { s with
    hdr := setidHdr (nextDraw s) s.hdr
    draws := s.draws.tail
    requests := s.requests + 1
    rsps := s.rsps ++ [setidRsp (nextDraw s)] } := by
  cases hd : nextDraw s with
  | success b0 b1 => exact exec_setid_success hd
  | failure => exact exec_setid_failure hd

/-- SETID writes ID alone (`40_csprng_id_injector.md` R59). -/
theorem setidHdr_frame (d : Draw) (h : Hdr) : setidHdr d h = { h with id := (setidHdr d h).id } := by cases d <;> rfl

/-- The ID that SETID writes does not depend on the header (`40_csprng_id_injector.md` R59). -/
theorem id_setidHdr_eq {d : Draw} (hd : d ≠ .failure) (h h' : Hdr) : (setidHdr d h').id = (setidHdr d h).id := by
  cases d with
  | success b0 b1 => rfl
  | failure => exact absurd rfl hd

/-- SETQM and the count setters neither read nor write ID (`40_csprng_id_injector.md` R59). -/
theorem setterHdr_setidHdr_comm {i : Instr} (hi : i ≠ .new) (d : Draw) (h : Hdr) :
    setterHdr i (setidHdr d h) = setidHdr d (setterHdr i h) := by
  cases d with
  | failure => rfl
  | success b0 b1 =>
    cases i with
    | new => exact absurd rfl hi
    | setqm q => cases q <;> rfl
    | _ => rfl

/-- Settles O31: `nextDraw` on each list of answers, and what a command can do to the answers by `exec_cases`. -/
theorem oneRequestPerSetid : Obligations.OneRequestPerSetid := by
  unfold Obligations.OneRequestPerSetid
  refine ⟨fun _ _ _ => rfl, fun _ => rfl, fun s => ⟨_, exec_setid s, rfl, rfl⟩, fun i s t hne hexec => ?_⟩
  obtain ⟨-, -, ⟨rfl, -, -⟩ | ⟨-, hdraws, hrequests⟩⟩ := exec_cases hexec
  · exact absurd rfl hne
  · exact ⟨hrequests, hdraws⟩

/-- Settles O33: SETID is `setidHdr` of an answer that does not depend on the header, and the setters commute with it. -/
theorem setidIsIndependentOfTheHeader : Obligations.SetidIsIndependentOfTheHeader := by
  unfold Obligations.SetidIsIndependentOfTheHeader
  refine ⟨fun s h => ⟨_, _, exec_setid s, exec_setid { s with hdr := h }, rfl, setidHdr_frame _ h, setidHdr_frame _ s.hdr,
    fun hd => id_setidHdr_eq hd s.hdr h⟩, fun i s hi hnew => ?_⟩
  rw [exec_setid, andThen_next, exec_setter hi, exec_setter hi, andThen_next, exec_setid]
  exact ⟨_, _, rfl, rfl, (setterHdr_setidHdr_comm hnew _ s.hdr).symm, rfl, rfl⟩

/-! ### The reset event -/

/-- Settles O2: the reset step writes RESET_H and keeps the rest, and NEW writes the same. -/
theorem resetEventZeroesHeader : Obligations.ResetEventZeroesHeader := by
  unfold Obligations.ResetEventZeroesHeader
  exact fun s rest => ⟨_, step_of_reset rfl, readField_resetH, rfl, rfl, rfl, rfl, exec_new s⟩

end Sys2Proof.Machine
end

section
/-! PROOFS. The bits and bytes of the header: the flags nibble (`10_state.md` R17), the Opcode quirk
(`42_dns_header_encoder.md` R70), the buffer accesses (`20_memory.md` R28, R29) and the reads of `Dec`
(`43_dns_header_decoder.md` R74, R75). -/

namespace Sys2Proof.Machine

/-! ### The flags word -/

/-- Bit k of FLAGS is bit 7 + k of the flags word (`30_encoding.md` R38). -/
theorem flags_getLsbD (h : Hdr) {k : Nat} (hk : k < 4) : h.flags.getLsbD k = (fw h).getLsbD (7 + k) := by
  conv_lhs => rw [← fw_flags h, BitVec.getLsbD_extractLsb', decide_eq_true hk, Bool.true_and]

/-- Settles O5: the four bits of FLAGS in the flags word by `flags_getLsbD`, and the sixteen nibbles by evaluation. -/
theorem flagsNibbleBits : Obligations.FlagsNibbleBits := by
  unfold Obligations.FlagsNibbleBits
  exact ⟨fun h => ⟨flags_getLsbD h (k := 3) (by decide), flags_getLsbD h (k := 2) (by decide),
    flags_getLsbD h (k := 1) (by decide), flags_getLsbD h (k := 0) (by decide)⟩, by decide, by decide⟩

/-- Settles O18: the Opcode position holds the Opcode-nonzero-indicator, extended by zeros. -/
theorem opcodeQuirk : Obligations.OpcodeQuirk := by
  unfold Obligations.OpcodeQuirk
  intro h
  rw [fw_opcode]
  refine ⟨fun hop => ?_, fun hop => ?_⟩
  · rw [hop]
    rfl
  · rw [opbit_of_ne hop]
    rfl

/-! ### MemRead and MemWrite -/

section
variable {off : Nat}

theorem memRead1_of_le {b : List Byte} (h : off + 1 ≤ b.length) : memRead1 b.length b off = some b[off] := by
  rw [memRead1, if_pos h]
  exact List.getElem?_eq_getElem h

theorem memRead1_of_lt {b : List Byte} (h : b.length < off + 1) : memRead1 b.length b off = none :=
  if_neg (Nat.not_le.mpr h)

theorem memRead2_of_le {b : List Byte} (h : off + 2 ≤ b.length) :
    memRead2 b.length b off = some (b[off] ++ b[off + 1]) :=
  memRead2_eq_some h (List.getElem?_eq_getElem _) (List.getElem?_eq_getElem _)

variable {w : List (Option Byte)}

theorem memWrite1_of_le (h : off + 1 ≤ 12) (v : Byte) : memWrite1 w off v = some (w.set off (some v)) := if_pos h

theorem memWrite1_of_lt (h : 12 < off + 1) (v : Byte) : memWrite1 w off v = none := if_neg (Nat.not_le.mpr h)

theorem memWrite2_of_le (h : off + 2 ≤ 12) (v : Word) :
    memWrite2 w off v = some ((w.set off (some (hiByte v))).set (off + 1) (some (loByte v))) := if_pos h

theorem memWrite2_of_lt (h : 12 < off + 2) (v : Word) : memWrite2 w off v = none := if_neg (Nat.not_le.mpr h)

end

/-- Settles O43: each read where the buffer has the bytes and where it does not. -/
theorem memReadIsBigEndian : Obligations.MemReadIsBigEndian := by
  unfold Obligations.MemReadIsBigEndian
  refine ⟨fun b off => ?_, fun b off => ?_⟩
  · rcases Nat.lt_or_ge b.length (off + 1) with h | h
    · simp [memRead1_of_lt h, Nat.not_le.mpr h]
    · simp [memRead1_of_le h, h]
  · rcases Nat.lt_or_ge b.length (off + 2) with h | h
    · simp [memRead2_of_lt h, Nat.not_le.mpr h]
    · exact ⟨by simp [memRead2_of_le h, h], fun _ => ⟨_, _, memRead1_of_le (by omega), memRead1_of_le h, memRead2_of_le h⟩⟩

/-- Settles O44: in bounds a write replaces one byte of `W`, or two neighbouring ones, and `List.set` keeps the others. -/
theorem memWriteStoresBigEndian : Obligations.MemWriteStoresBigEndian := by
  unfold Obligations.MemWriteStoresBigEndian
  refine fun w off hw => ⟨fun v => ⟨fun h => memWrite1_of_lt h v, fun h => ⟨_, memWrite1_of_le h v, ?_, ?_, fun k hk => ?_⟩⟩,
    fun v => ⟨fun h => memWrite2_of_lt h v, fun h => ⟨_, memWrite2_of_le h v, ?_, ?_, ?_, fun k hk hk' => ?_⟩⟩⟩
  · rw [List.length_set, hw]
  · exact List.getElem?_set_self (by omega)
  · exact List.getElem?_set_ne hk.symm
  · rw [List.length_set, List.length_set, hw]
  · rw [List.getElem?_set_ne (by omega)]
    exact List.getElem?_set_self (by omega)
  · exact List.getElem?_set_self (by rw [List.length_set]; omega)
  · rw [List.getElem?_set_ne hk'.symm, List.getElem?_set_ne hk.symm]

/-! ### The reads of `Dec` -/

/-- Settles O35: `decBytes_total` leaves no third result, and a buffer longer than twelve bytes answers FormatError, which a
twelve-byte buffer with strictness off does not. -/
theorem decoderNeverReadsOutOfBounds : Obligations.DecoderNeverReadsOutOfBounds := by
  unfold Obligations.DecoderNeverReadsOutOfBounds
  refine ⟨fun mode strictZ b hout => ?_, fun mode strictZ _ b b' hlen =>
    ⟨decBuffer_of_ne mode strictZ b hlen, decBuffer_of_ne mode strictZ b' hlen⟩, fun mode b b' hb heq => ?_⟩
  · rcases decBytes_total mode strictZ b with h | ⟨h', h⟩ <;> cases h.symm.trans hout
  · by_contra hne
    have longer : (b ++ b').length ≠ 12 := by
      rw [List.length_append]
      have := List.length_pos_iff.mpr hne
      omega
    rw [decBytes_lenient mode hb, decBytes_of_ne mode false longer] at heq
    cases heq

/-- The fields cut out of an encoded header: the header with OPCODE reduced to 0 or 1 (`43_dns_header_decoder.md` R78). -/
theorem cutBits_encBits (h : Hdr) : cutBits (encBits h) = { h with opcode := if h.opcode ≠ 0 then 1 else 0 } := by
  have decoded := decBytes_encHdr Config.decOpcodeMode Config.strictZ h
  rw [decBytes_eq_cutBits (encHdr_length h), busOfBytes_encHdr] at decoded
  exact DecResult.header.inj decoded

/-- Settles O39: ENC answers `encBits`, whose fields DEC cuts out of the bus. -/
theorem encThenDecReturnsTheHeader : Obligations.EncThenDecReturnsTheHeader := by
  unfold Obligations.EncThenDecReturnsTheHeader
  intro s
  have command : decode ⟨0x7000C, encBits s.hdr⟩ = .dec 12 (presentedBytes 12 (encBits s.hdr)) := decode_dec 12 _
  refine ⟨encBits s.hdr, exec_enc_bits s, ?_⟩
  rw [command, ← cutBits_encBits]
  exact execDec_presentedBytes _ s

end Sys2Proof.Machine
end
